-- ==== Sys2Proof/Word.lean ====
section
/-!
DEFINITION. The word types of the block (spec/00_scope.md R5, R9; spec/10_state.md R20).
-/

namespace Sys2Proof

/-- A lane register's contents: 64 bits (R5 `W`, R20). -/
abbrev Lane := BitVec 64

/-- A byte of the state, of a message or of the output: 8 bits (R50, R54). -/
abbrev Byte := BitVec 8

/-- A command word, `cmd[15:0]` (R5 `CMD_BITS`, R81). -/
abbrev CmdWord := BitVec 16

/-- The engine port's word, the single bit `perm_req` (R84). -/
abbrev EngineWord := BitVec 1

/-- The 25 lanes `A[0]` to `A[24]`: the 1600-bit permutation state (R20). -/
abbrev Lanes := Vector Lane 25

end Sys2Proof
end

