-- ==== Sys2Proof/Config.lean ====
section
/-!
DEFINITION. What an implementation fixes, and the free values.
The largest rate (spec/00_scope.md R5), the open parameters of R7, and the values that spec/10_state.md R35 leaves
unspecified.
-/

namespace Sys2Proof

/-- `RATE_MAX`, the largest rate in bytes (R5). -/
def Config.rateMax : Nat := 200

/-- The two kinds of reset input (R7 `RESET_KIND`). -/
inductive ResetKind where
  | synchronous
  | asynchronous
  deriving DecidableEq, Repr, Inhabited

/-- `RESET_KIND`, an open parameter on which no rule depends (R7, R190). -/
opaque Config.resetKind : ResetKind

/-- `CMD_CYCLES` less one: an open parameter, any natural number (R7, R198). -/
opaque Config.cmdCyclesLessOne : Nat

/-- `PERM_CYCLES` less one: an open parameter, any natural number (R7, R198). -/
opaque Config.permCyclesLessOne : Nat

/-- `CMD_CYCLES`, the clock cycles of a command apart from any permutation; any value from 1 up (R7). -/
def Config.cmdCycles : Nat := Config.cmdCyclesLessOne + 1

/-- `PERM_CYCLES`, the clock cycles of one permutation; any value from 1 up (R7). -/
def Config.permCycles : Nat := Config.permCyclesLessOne + 1

/-- The cycles for which `cmd_ready` stays 0 while a command that runs `perms` permutations executes (R198).
No value of the machine depends on it (R201). -/
def Config.busyCycles (perms : Nat) : Nat := Config.cmdCycles + perms * Config.permCycles

/-- FREE VALUE. What the lanes hold after the `n`-th assertion of reset: nothing constrains it (R35, R191).
It is a function of `n` alone, so it does not depend on the lanes from before, which R191 does not promise (DESIGN
CHOICE, unsafe, notes/assumptions/2.md). -/
opaque Config.freeLanes : Nat → Lanes

/-- FREE VALUE. What `rate` holds after the `n`-th assertion of reset (R35; notes/assumptions/2.md). -/
opaque Config.freeRate : Nat → Byte

/-- FREE VALUE. What `pos` holds after the `n`-th assertion of reset (R35; notes/assumptions/2.md). -/
opaque Config.freePos : Nat → Byte

end Sys2Proof
end

