-- ==== Sys2Proof/Syntax.lean ====
section
/-!
DEFINITION. The instructions of the block (every row of spec/opcode_table.json), the words they arrive as, and the
assembler lines that expand to them (spec/30_encoding.md R81, R84, R86, R91 to R93).
-/

namespace Sys2Proof

/-- One constructor per row of the opcode table.  The operand fields have the widths of R81, so every term is an
instruction that some port word encodes. -/
inductive Instr where
  /-- INIT `sec`: create a fresh context (R131). -/
  | init (sec : BitVec 10)
  /-- ABSORB `byte`: XOR one message byte at the cursor (R134). -/
  | absorb (byte : Byte)
  /-- FINALIZE: pad (R138). -/
  | finalize
  /-- SQUEEZE: output one byte (R141). -/
  | squeeze
  /-- PERMUTE: the permutation alone, on the engine port only (R84, R101). -/
  | permute
  deriving DecidableEq, Repr

/-- A word on one of the two ports that instructions arrive on (R80, R84). -/
inductive PortWord where
  /-- A 16-bit word on the command port `cmd` (R81, formats I, B and Z). -/
  | command (w : CmdWord)
  /-- The 1-bit word `perm_req` on the internal engine port (R84, format E). -/
  | engine (req : EngineWord)
  deriving DecidableEq, Repr

/-- One line of assembler text, operands as the numbers and characters written (R91 to R93). -/
inductive AsmLine where
  | init (sec : Nat)
  | absorb (b : Nat)
  | finalize
  | squeeze
  /-- `ABSORBN b0, b1, ...` (R92). -/
  | absorbN (bytes : List Nat)
  /-- `ABSORBS "text"` (R92). -/
  | absorbS (text : List Char)
  /-- `SQUEEZEN n` (R93). -/
  | squeezeN (n : Nat)
  /-- `SHAKE128 "text", n` (R93). -/
  | shake128 (text : List Char) (n : Nat)
  /-- `SHAKE256 "text", n` (R93). -/
  | shake256 (text : List Char) (n : Nat)
  deriving DecidableEq, Repr

end Sys2Proof
end

