-- ==== Sys2Proof/Machine/State.lean ====
section
/-!
DEFINITION. The state of one block instance (spec/10_state.md R20 to R37), the reasons a step can stop, and the state
after reset.  The registers come first; then what the ports show for the latest step; then what the interface of one
deterministic step function needs and the spec calls input or event (the words the host will present, the record of
the run); last, the counter that free values are drawn with.
-/

namespace Sys2Proof.Machine

/-- The values of the `phase` register (R27).  The reserved codes 5, 6, 7 are never produced, so the type has no
term for them (spec/93_implementation_defined.md U11). -/
inductive Phase where
  /-- 0: no context exists. -/
  | idle
  /-- 1: fresh context, nothing absorbed. -/
  | created
  /-- 2: at least one byte absorbed, not finalized. -/
  | absorbing
  /-- 3: finalized, nothing squeezed. -/
  | padded
  /-- 4: at least one byte squeezed. -/
  | squeezing
  deriving DecidableEq, Repr

/-- The values of the `fault` register (R28, R160).  Code 7 is never produced and has no term. -/
inductive FaultCause where
  /-- 0: no fault since the last successful INIT or reset. -/
  | noFault
  /-- 1 (R161). -/
  | illegalCommand
  /-- 2 (R162). -/
  | badParameter
  /-- 3 (R163). -/
  | absorbAfterFinalize
  /-- 4 (R164). -/
  | squeezeBeforeFinalize
  /-- 5 (R165). -/
  | finalizeRepeated
  /-- 6 (R166). -/
  | noContext
  deriving DecidableEq, Repr

/-- One thing the host does to the block (spec/70_reset_and_hazards.md R203). -/
inductive Input where
  /-- A word is issued on the command port, or driven on the engine port by a test bench (R84). -/
  | word (p : PortWord)
  /-- `rst` is asserted between commands (R190). -/
  | reset
  /-- A word is issued and `rst` is asserted before it completes (R191). -/
  | resetDuring (p : PortWord)
  deriving DecidableEq, Repr

/-- Why the model stops.  None of the block's own faults is here: those are recorded in the register `fault` and the
machine goes on (R167). -/
inductive Fault where
  /-- Raised by ABSORB, FINALIZE and SQUEEZE when they would access a byte position `p` above 199, which the state byte
  space does not have (R50, R56).  Safe: it happens only in states that no run reaches (`pos` or `rate - 1` above 199),
  where the spec defines no effect. -/
  | byteOutsideState (p : Nat)
  deriving DecidableEq, Repr

/-- Why the model gives an instruction no meaning. -/
inductive Refusal where
  /-- Raised by an arm of `exec` whose instruction has no meaning yet; no arm does.  Safe: the model stops. -/
  | notModelled (mnemonic : String)
  deriving DecidableEq, Repr

/-- The state of one block instance. -/
structure State where
  /-- The lane registers `A[0..24]` (R20).  The 200 state bytes are a view of them (R23). -/
  lanes : Lanes
  /-- The rate in bytes (R25). -/
  rate : Byte
  /-- The position cursor (R26). -/
  pos : Byte
  /-- The phase register (R27). -/
  phase : Phase
  /-- The cause of the first fault since the last successful INIT or reset (R28). -/
  fault : FaultCause
  /-- The command word that caused it (R29). -/
  fcmd : CmdWord
  /-- The output port: the byte `out_data` that the latest step presented with `out_valid`, if it did (R80, R83). -/
  outByte : Option Byte
  /-- The port `perm_pulse`: the latest step ran the permutation (R80, R34). -/
  permPulse : Bool
  /-- The host's side: what it will do to the block, the next thing first (R203). -/
  inputs : List Input
  /-- The record of the run: the output bytes in order (R204). -/
  outputs : List Byte
  /-- The record of the run: the number of PERMUTE events (R34, R204). -/
  perms : Nat
  /-- The record of the run: some fault occurred; never cleared (R168). -/
  everFaulted : Bool
  /-- The model's own: how often reset has been asserted, which indexes the free values (notes/assumptions/2.md). -/
  freeCount : Nat
  deriving DecidableEq, Repr

/-- The machine right after reset (R35).  `lanes`, `rate` and `pos` hold no defined value there; their zeros are the
model's (DESIGN CHOICE, notes/assumptions/1.md). -/
def State.reset : State where
  lanes := Vector.replicate 25 0
  rate := 0
  pos := 0
  phase := .idle
  fault := .noFault
  fcmd := 0
  outByte := none
  permPulse := false
  inputs := []
  outputs := []
  perms := 0
  everFaulted := false
  freeCount := 0

/-- What one step, or one instruction, answers. -/
abbrev Result := Host.Outcome State Fault Refusal

end Sys2Proof.Machine
end

