-- ==== Sys2Proof/Machine/Flags.lean ====
section
/-!
DEFINITION. The conditions and status values of the sequencer.  The block has no arithmetic flags (spec/10_state.md
R31): what it evaluates is `pos == rate` (spec/41_sponge.md R146), the legality of a command in the current phase and
the range of INIT's parameter (R132, R145; spec/60_exceptions.md R160 to R166), and what it shows are the codes of
`phase` and `fault` (R27, R160).
-/

namespace Sys2Proof.Machine

/-- The 3-bit code of a phase (R27). -/
def Phase.code : Phase → BitVec 3
  | .idle => 0
  | .created => 1
  | .absorbing => 2
  | .padded => 3
  | .squeezing => 4

/-- The 3-bit code of a fault cause (R160). -/
def FaultCause.code : FaultCause → BitVec 3
  | .noFault => 0
  | .illegalCommand => 1
  | .badParameter => 2
  | .absorbAfterFinalize => 3
  | .squeezeBeforeFinalize => 4
  | .finalizeRepeated => 5
  | .noContext => 6

/-- `pos == rate`, an 8-bit equality (R146). -/
def atRate (s : State) : Bool := s.pos == s.rate

/-- The fault that INIT `sec` raises: a parameter that leaves no rate (R131, R132, R162). -/
def initCause (sec : BitVec 10) : Option FaultCause := if sec.toNat / 4 > 199 then some .badParameter else none

/-- The fault that ABSORB raises in a phase (R134, R163, R166). -/
def absorbCause : Phase → Option FaultCause
  | .idle => some .noContext
  | .created => none
  | .absorbing => none
  | .padded => some .absorbAfterFinalize
  | .squeezing => some .absorbAfterFinalize

/-- The fault that FINALIZE raises in a phase (R138, R165, R166). -/
def finalizeCause : Phase → Option FaultCause
  | .idle => some .noContext
  | .created => none
  | .absorbing => none
  | .padded => some .finalizeRepeated
  | .squeezing => some .finalizeRepeated

/-- The fault that SQUEEZE raises in a phase (R141, R164, R166). -/
def squeezeCause : Phase → Option FaultCause
  | .idle => some .noContext
  | .created => some .squeezeBeforeFinalize
  | .absorbing => some .squeezeBeforeFinalize
  | .padded => none
  | .squeezing => none

/-- The rate that INIT `sec` fixes, `200 - floor(sec / 4)` (R6, R131). -/
def rateOfSec (sec : BitVec 10) : Byte := BitVec.ofNat 8 (200 - sec.toNat / 4)

end Sys2Proof.Machine
end

