-- ==== Sys2Proof/Machine/Operands.lean ====
section
/-!
DEFINITION. The byte view of the lanes (spec/20_memory.md R50 to R56) and the two operand forms of the commands:
cursor-indirect and rate-relative (R51); and FINALIZE's constant bytes (spec/00_scope.md R5).
-/

namespace Sys2Proof.Machine

/-- The place of byte position `p` inside its lane, in bits from bit 0 (R52). -/
def byteShift (p : Nat) : Nat := 8 * (p % 8)

/-- `MemRead(p, 1)`, defined for the 200 positions of the state byte space (R52, R56). -/
def memRead (p : Nat) (a : Lanes) : Option Byte :=
  if h : p < 200 then some ((a[p / 8] >>> byteShift p).setWidth 8) else none

/-- `MemWrite(p, 1, v)` (R52, R56).  No command uses it: the hardware's form is `memXor`. -/
def memWrite (p : Nat) (v : Byte) (a : Lanes) : Option Lanes :=
  if h : p < 200 then
    some (a.set (p / 8) ((a[p / 8] &&& ~~~ ((0xFF : Lane) <<< byteShift p)) ||| (v.setWidth 64 <<< byteShift p)))
  else none

/-- `MemXor(p, v)` (R52, R56). -/
def memXor (p : Nat) (v : Byte) (a : Lanes) : Option Lanes :=
  if h : p < 200 then some (a.set (p / 8) (a[p / 8] ^^^ (v.setWidth 64 <<< byteShift p))) else none

/-- The cursor-indirect operand: the byte position `pos` (R51). -/
def cursorPosition (s : State) : Nat := s.pos.toNat

/-- The rate-relative operand: the byte position `rate - 1` (R51).  The subtraction is the register's own 8 bits wide,
so the rate 0, which no context has (R25), gives 255, a position that does not exist. -/
def lastRatePosition (s : State) : Nat := (s.rate - 1).toNat

/-- `PAD_FIRST` (R5, R138). -/
def padFirst : Byte := 0x1F

/-- `PAD_LAST` (R5, R138). -/
def padLast : Byte := 0x80

/-- All 25 lanes zero, what INIT leaves (R131). -/
def zeroLanes : Lanes := Vector.replicate 25 0

end Sys2Proof.Machine
end

