-- ==== Sys2Proof/Machine/Permutation.lean ====
section
/-!
DEFINITION. The permutation engine as a function of the 25 lanes: the rotation barrel, the tables, the five stages, the
round and Keccak-f[1600] (spec/40_permutation.md R100 to R117).
-/

namespace Sys2Proof.Machine

/-- `A[x, y]`, which is `A[x + 5*y]` (spec/10_state.md R21). -/
def laneAt (a : Lanes) (x y : Fin 5) : Lane := a[x.val + 5 * y.val]

/-- The column `x = i mod 5` of lane `i` (R21). -/
def column (i : Fin 25) : Fin 5 := ⟨i.val % 5, by omega⟩

/-- The row `y = i div 5` of lane `i` (R21). -/
def row (i : Fin 25) : Fin 5 := ⟨i.val / 5, by omega⟩

/-- `ROL64(v, n)`, the rotation barrel; the amount 0 is a case of its own (R103). -/
def rol64 (v : Lane) (n : Nat) : Lane := if n = 0 then v else (v <<< n) ||| (v >>> (64 - n))

/-- The rotation-offset ROM `RHO` by lane index (R108). -/
def rhoTable : Vector Nat 25 :=
  #v[0, 1, 62, 28, 27,
     36, 44, 6, 55, 20,
     3, 10, 43, 25, 39,
     41, 45, 15, 21, 8,
     18, 2, 61, 56, 14]

/-- `PIDST`: the position that old lane `i` goes to (R111). -/
def piDst : Vector (Fin 25) 25 :=
  #v[0, 10, 20, 5, 15, 16, 1, 11, 21, 6, 7, 17, 2, 12, 22, 23, 8, 18, 3, 13, 14, 24, 9, 19, 4]

/-- `PISRC`: the old lane that new lane `j` comes from (R111). -/
def piSrc : Vector (Fin 25) 25 :=
  #v[0, 6, 12, 18, 24, 3, 9, 10, 16, 22, 1, 7, 13, 19, 20, 4, 5, 11, 17, 23, 2, 8, 14, 15, 21]

/-- The round-constant ROM in the seven bits per round that R116 says it needs: bit `j` of entry `ir` is the bit at
position `2^j - 1` of `RC[ir]`, the only positions that are ever set. -/
def rcRom : Vector (BitVec 7) 24 :=
  #v[0b0000001, 0b0011010, 0b1011110, 0b1110000, 0b0011111, 0b0100001, 0b1111001, 0b1010101,
     0b0001110, 0b0001100, 0b0110101, 0b0100110, 0b0111111, 0b1001111, 0b1011101, 0b1010011,
     0b1010010, 0b1001000, 0b0010110, 0b1100110, 0b1111001, 0b1011000, 0b0100001, 0b1110100]

/-- The wiring from seven ROM bits to a lane: positions 63, 31, 15, 7, 3, 1 and 0, every other bit 0 (R116). -/
def wireRc (b : BitVec 7) : Lane :=
  b.extractLsb' 6 1 ++ 0#31 ++ b.extractLsb' 5 1 ++ 0#15 ++ b.extractLsb' 4 1 ++ 0#7 ++ b.extractLsb' 3 1 ++
    0#3 ++ b.extractLsb' 2 1 ++ 0#1 ++ b.extractLsb' 0 2

/-- `RC[ir]` (R116). -/
def roundConstant (ir : Fin 24) : Lane := wireRc rcRom[ir]

/-- `C[x]`, the parity of column `x` (R104). -/
def colParity (a : Lanes) (x : Fin 5) : Lane :=
  laneAt a x 0 ^^^ laneAt a x 1 ^^^ laneAt a x 2 ^^^ laneAt a x 3 ^^^ laneAt a x 4

/-- `D[x]`, the mask of column `x`; the sums are mod 5 (R105). -/
def thetaMask (a : Lanes) (x : Fin 5) : Lane := colParity a (x + 4) ^^^ rol64 (colParity a (x + 1)) 1

/-- THETA: every parity is taken from the lanes as they are when the stage begins (R106). -/
def theta (a : Lanes) : Lanes := Vector.ofFn fun i : Fin 25 => a[i] ^^^ thetaMask a (column i)

/-- RHO (R107). -/
def rho (a : Lanes) : Lanes := Vector.ofFn fun i : Fin 25 => rol64 a[i] rhoTable[i]

/-- PI: all lanes move at once (R110). -/
def pi (a : Lanes) : Lanes := Vector.ofFn fun j : Fin 25 => a[piSrc[j]]

/-- CHI: every row is read before it is written; the sums are mod 5 (R113). -/
def chi (a : Lanes) : Lanes := Vector.ofFn fun i : Fin 25 =>
  a[i] ^^^ (~~~ laneAt a (column i + 1) (row i) &&& laneAt a (column i + 2) (row i))

/-- IOTA `ir`: lane 0 only (R115). -/
def iota (ir : Fin 24) (a : Lanes) : Lanes := a.set 0 (a[0] ^^^ roundConstant ir)

/-- ROUND `ir`: the five stages in their order (R102, R119). -/
def roundStep (a : Lanes) (ir : Fin 24) : Lanes := iota ir (chi (pi (rho (theta a))))

/-- PERMUTE as a function on states: rounds 0 to 23, round 0 first (R101).  Irreducible, so that no proof unfolds the
24 rounds by accident: `permute a` and `a` would else be compared by running them. -/
@[irreducible] def permute (a : Lanes) : Lanes := (List.finRange 24).foldl roundStep a

/-- `WALK_ROT` and `WALK_DST` side by side: the rotation and the destination of each step of the fused walk (R112). -/
def walkTable : List (Nat × Fin 25) :=
  [(1, 10), (3, 7), (6, 11), (10, 17), (15, 18), (21, 3), (28, 5), (36, 16), (45, 8), (55, 21), (2, 24), (14, 4)] ++
  [(27, 15), (41, 23), (56, 19), (8, 13), (25, 12), (43, 2), (62, 20), (18, 14), (39, 22), (61, 9), (20, 6), (44, 1)]

/-- The fused RHO-then-PI walk in place, with one carried lane: an equivalent form that the machine does not use
(R112, spec/90_conflicts.md C3). -/
def rhoPiWalk (a : Lanes) : Lanes :=
  (walkTable.foldl (fun c step => (c.1.set step.2 (rol64 c.2 step.1), c.1[step.2])) (a, a[1])).1

end Sys2Proof.Machine
end

