-- ==== Sys2Proof/Machine/Ops.lean ====
section
/-!
DEFINITION. The named operations that the meanings share: byte accesses, the engine, the permutation trigger, raising a
fault and leaving the faulted state, the check order of a command, and reset.
-/

namespace Sys2Proof.Machine

/-- The start of a step at the output ports: no output byte and no pulse yet (spec/30_encoding.md R80, R83). -/
def quiet (s : State) : State := { s with outByte := none, permPulse := false }

/-- XOR `v` into the byte at position `p` and go on (spec/20_memory.md R52). -/
def xorByteThen (p : Nat) (v : Byte) (s : State) (next : State → Result) : Result :=
  match memXor p v s.lanes with
  | some a => next { s with lanes := a }
  | none => .fault (.byteOutsideState p)

/-- Read the byte at position `p` and go on with it (spec/20_memory.md R52). -/
def readByteThen (p : Nat) (s : State) (next : Byte → Result) : Result :=
  match memRead p s.lanes with
  | some b => next b
  | none => .fault (.byteOutsideState p)

/-- `PERMUTE()`: all 24 rounds on the lanes, and one PERMUTE event (spec/40_permutation.md R101; spec/10_state.md R34). -/
def runPermutation (s : State) : State :=
  { s with lanes := permute s.lanes, perms := s.perms + 1, permPulse := true }

/-- The permutation trigger, the same in ABSORB and in SQUEEZE: at the rate, permute and reset the cursor
(spec/41_sponge.md R146). -/
def permuteAtRate (s : State) : State := if atRate s then { runPermutation s with pos := 0 } else s

/-- `emit(v)`: the byte is the step's output (spec/00_scope.md R10; spec/30_encoding.md R83). -/
def emit (v : Byte) (s : State) : State := { s with outByte := some v, outputs := s.outputs ++ [v] }

/-- `raise F(c)` on command word `w`, the one fault entry of the block: the first fault wins, nothing but `fault` and
`fcmd` changes, and the record remembers that a fault occurred (spec/60_exceptions.md R167, R168). -/
def raiseFault (c : FaultCause) (w : CmdWord) (s : State) : State :=
  if s.fault = .noFault then { s with fault := c, fcmd := w, everFaulted := true } else s

/-- The return from a fault, which only a successful INIT makes (spec/60_exceptions.md R169). -/
def clearFault (s : State) : State := { s with fault := .noFault, fcmd := 0 }

/-- What becomes of the command word `w` (spec/60_exceptions.md R170).  `cause` is the fault that the decoder, the
phase or the parameter raises, if one does; `isInit` says that the command is INIT, which alone gets through while
the block is faulted, and only when nothing is wrong with it (R168).  Every check stands before every write. -/
def guarded (w : CmdWord) (isInit : Bool) (cause : Option FaultCause) (s : State) (run : State → Result) : Result :=
  if s.fault ≠ .noFault ∧ ¬ (isInit = true ∧ cause = none) then .next (quiet s)
  else
    match cause with
    | some c => .next (raiseFault c w (quiet s))
    | none => run (quiet s)

/-- A command word that decodes as ILLEGAL (spec/30_encoding.md R88; spec/60_exceptions.md R161). -/
def illegalCommand (w : CmdWord) (s : State) : Result := guarded w false (some .illegalCommand) s .next

/-- `rst` asserted (spec/70_reset_and_hazards.md R190, R191): the reset state of R35.  The lanes, the rate and the
cursor take free values, of which neither zero nor what they held may be assumed.  The free values depend on the number
of resets alone and not on what was there before, a point that R191 leaves open (DESIGN CHOICE, unsafe,
notes/assumptions/2.md).  The host's side and the record of the run are no state of the block, and stay
(notes/assumptions/3.md, 5.md). -/
def assertReset (s : State) : State :=
  { State.reset with
    lanes := Config.freeLanes s.freeCount
    rate := Config.freeRate s.freeCount
    pos := Config.freePos s.freeCount
    inputs := s.inputs
    outputs := s.outputs
    perms := s.perms
    everFaulted := s.everFaulted
    freeCount := s.freeCount + 1 }

end Sys2Proof.Machine
end

