-- ==== Sys2Proof/Machine/Engine.lean ====
section
/-!
DEFINITION. The meaning of PERMUTE, the one instruction of the engine port (spec/30_encoding.md R84;
spec/40_permutation.md R101).
-/

namespace Sys2Proof.Machine

/-- PERMUTE (R101): in any state, whatever the phase, the cursor, the rate and the fault register hold.  R84's `perm_done`,
of which the spec says only that it exists, is dropped as completion timing of an atomic step (DESIGN CHOICE,
notes/assumptions/15.md). -/
def execPermute (s : State) : Result := .next (runPermutation (quiet s))

end Sys2Proof.Machine
end

