-- ==== Sys2Proof/WellFormed.lean ====
section
/-!
DEFINITION. What is well formed.
A term of `Instr` always is: its fields have exactly the widths of spec/30_encoding.md R81.  What can be ill formed is
a command word (an opcode outside the map of R86, or a reserved bit set) and an assembler line (an operand outside
the range of R91, or a character that is not ASCII, R92).
-/

namespace Sys2Proof

/-- One row of the command-port opcode map (R86): a word selects the row when its bits under `mask` are `value`. -/
structure OpRow where
  mnemonic : String
  mask : CmdWord
  value : CmdWord
  deriving DecidableEq, Repr

/-- The word selects the row (R86). -/
def OpRow.selects (r : OpRow) (w : CmdWord) : Bool := w &&& r.mask == r.value

/-- The complete map of `cmd[15:12]` (R86). -/
def opcodeMap : List OpRow :=
  [ { mnemonic := "INIT", mask := 0xFC00, value := 0x1000 },
    { mnemonic := "ABSORB", mask := 0xFF00, value := 0x2000 },
    { mnemonic := "FINALIZE", mask := 0xFFFF, value := 0x3000 },
    { mnemonic := "SQUEEZE", mask := 0xFFFF, value := 0x4000 } ]

/-- A well-formed command word: some row of the map selects it (R86, R88). -/
def commandWf (w : CmdWord) : Bool := opcodeMap.any fun r => r.selects w

/-- A byte operand of an assembler line (R91: `0 <= b <= 255`). -/
def asmByteWf (b : Nat) : Bool := b ≤ 255

/-- A text operand: ASCII characters (R92). -/
def asmTextWf (text : List Char) : Bool := text.all fun c => c.toNat ≤ 127

/-- A well-formed assembler line: every operand is in the range of R91, every text is ASCII (R92). -/
def AsmLine.wf : AsmLine → Bool
  | .init sec => sec ≤ 1023
  | .absorb b => asmByteWf b
  | .finalize => true
  | .squeeze => true
  | .absorbN bytes => bytes.all asmByteWf
  | .absorbS text => asmTextWf text
  | .squeezeN _ => true
  | .shake128 text _ => asmTextWf text
  | .shake256 text _ => asmTextWf text

end Sys2Proof
end

