-- ==== Sys2Proof/Decode.lean ====
section
/-!
DEFINITION. The decoder, total on every word of both ports and rejecting by name (spec/30_encoding.md R84, R87, R88),
and after it the encoder (R81, R86, R91).
-/

namespace Sys2Proof

/-- Why a port word is no instruction. -/
inductive Reject where
  /-- `cmd[15:12]` is `0x0` or `0x5..0xF` (R88). -/
  | illegalOpcode
  /-- A legal opcode with a reserved bit set (R88). -/
  | reservedBitSet
  /-- The engine-port word 0: no request (R84).  This is no error. -/
  | noRequest
  deriving DecidableEq, Repr

/-- What a decoder answers. -/
inductive Decoded where
  | instr (i : Instr)
  | rejected (why : Reject)
  deriving DecidableEq, Repr

/-- `op`, the opcode `cmd[15:12]` (R81). -/
def opField (w : CmdWord) : BitVec 4 := w.extractLsb' 12 4

/-- `sec`, the operand `cmd[9:0]` of format I (R81, R85). -/
def secField (w : CmdWord) : BitVec 10 := w.extractLsb' 0 10

/-- `byte`, the operand `cmd[7:0]` of format B (R81, R85). -/
def byteField (w : CmdWord) : Byte := w.extractLsb' 0 8

/-- The name under which an illegal command word is rejected (R88). -/
def rejectReason (w : CmdWord) : Reject :=
  if opField w = 0x1 ∨ opField w = 0x2 ∨ opField w = 0x3 ∨ opField w = 0x4 then .reservedBitSet
  else .illegalOpcode

/-- The command-port decoder, total on all 65536 words (R87). -/
def decodeCommand (w : CmdWord) : Decoded :=
  if w &&& 0xFC00 = 0x1000 then .instr (.init (secField w))
  else if w &&& 0xFF00 = 0x2000 then .instr (.absorb (byteField w))
  else if w = 0x3000 then .instr .finalize
  else if w = 0x4000 then .instr .squeeze
  else .rejected (rejectReason w)

/-- The engine-port decoder: 1 is PERMUTE, 0 is no request (R84, R86). -/
def decodeEngine (req : EngineWord) : Decoded :=
  if req = 1 then .instr .permute else .rejected .noRequest

/-- The decoder of both ports. -/
def decode : PortWord → Decoded
  | .command w => decodeCommand w
  | .engine req => decodeEngine req

/-- `INIT sec` is `0x1000 | sec` (R91). -/
def initWord (sec : BitVec 10) : CmdWord := 0x1000 ||| sec.setWidth 16

/-- `ABSORB b` is `0x2000 | b` (R91). -/
def absorbWord (b : Byte) : CmdWord := 0x2000 ||| b.setWidth 16

/-- `FINALIZE` is `0x3000` (R91). -/
def finalizeWord : CmdWord := 0x3000

/-- `SQUEEZE` is `0x4000` (R91). -/
def squeezeWord : CmdWord := 0x4000

/-- The encoder (R81, R84, R86, R91). -/
def encode : Instr → PortWord
  | .init sec => .command (initWord sec)
  | .absorb b => .command (absorbWord b)
  | .finalize => .command finalizeWord
  | .squeeze => .command squeezeWord
  | .permute => .engine 1

/-- The port word of an instruction of the opcode table: rows of up to 8 bits are the engine port's (the table gives
PERMUTE one bit), the others the command port's. -/
def tableWord (nbits w : Nat) : PortWord :=
  if nbits ≤ 8 then .engine (BitVec.ofNat 1 w) else .command (BitVec.ofNat 16 w)

/-- The word fits the port it would be laid on. -/
def tableWordFits (nbits w : Nat) : Bool := if nbits ≤ 8 then w < 2 else w < 65536

/-- The instruction the decoder reads from a word numbered as spec/opcode_table.json numbers it. -/
def decodeTableWord (nbits w : Nat) : Option Instr :=
  if tableWordFits nbits w then
    match decode (tableWord nbits w) with
    | .instr i => some i
    | .rejected _ => none
  else none

end Sys2Proof
end

