-- ==== Sys2Proof/Machine/Sponge.lean ====
section
/-!
DEFINITION. The meanings of the four commands of the sponge sequencer (spec/41_sponge.md R131, R134, R138, R141).
-/

namespace Sys2Proof.Machine

/-- INIT `sec` (R131): a fresh context, in every phase and also out of a fault. -/
def execInit (sec : BitVec 10) (s : State) : Result :=
  guarded (initWord sec) true (initCause sec) s fun s =>
    .next (clearFault { s with lanes := zeroLanes, rate := rateOfSec sec, pos := 0, phase := .created })

/-- ABSORB `byte` (R134): XOR at the cursor, advance, and permute eagerly when that fills the block. -/
def execAbsorb (byte : Byte) (s : State) : Result :=
  guarded (absorbWord byte) false (absorbCause s.phase) s fun s =>
    xorByteThen (cursorPosition s) byte s fun s =>
      .next { permuteAtRate { s with pos := s.pos + 1 } with phase := .absorbing }

/-- FINALIZE (R138): XOR both padding bytes, also when they fall on one position (R139), and put the cursor at the
rate; the permutation is left to the first SQUEEZE. -/
def execFinalize (s : State) : Result :=
  guarded finalizeWord false (finalizeCause s.phase) s fun s =>
    xorByteThen (cursorPosition s) padFirst s fun s =>
      xorByteThen (lastRatePosition s) padLast s fun s =>
        .next { s with pos := s.rate, phase := .padded }

/-- SQUEEZE (R141): permute lazily when the cursor is at the rate, output the byte at the cursor, advance. -/
def execSqueeze (s : State) : Result :=
  guarded squeezeWord false (squeezeCause s.phase) s fun s =>
    let s := permuteAtRate s
    readByteThen (cursorPosition s) s fun b =>
      .next { emit b s with pos := s.pos + 1, phase := .squeezing }

end Sys2Proof.Machine
end

