-- ==== Sys2Proof/Machine/Dispatch.lean ====
section
/-!
DEFINITION. exec: one arm per constructor of Instr, each one direct call of that instruction's meaning.
-/

namespace Sys2Proof.Machine

def exec (i : Instr) (s : State) : Host.Outcome State Fault Refusal :=
  match i with
  | .init sec => Sys2Proof.Machine.execInit sec s
  | .absorb byte => Sys2Proof.Machine.execAbsorb byte s
  | .finalize => Sys2Proof.Machine.execFinalize s
  | .squeeze => Sys2Proof.Machine.execSqueeze s
  | .permute => Sys2Proof.Machine.execPermute s

end Sys2Proof.Machine
end

