-- ==== Sys2Proof/Machine/Ports.lean ====
section
/-!
DEFINITION. The ports: what a step takes from the host, and what the status port shows (spec/30_encoding.md R80 to R84;
spec/70_reset_and_hazards.md R190, R191, R203).
-/

namespace Sys2Proof.Machine

/-- What a step finds at the ports. -/
inductive Fetched where
  /-- No command is presented and no request is made. -/
  | nothing
  /-- `rst` is asserted. -/
  | resetAsserted
  /-- A command word that decodes as ILLEGAL. -/
  | illegal (w : CmdWord)
  /-- An instruction. -/
  | instr (i : Instr)
  deriving DecidableEq, Repr

/-- What a word on a port asks for (R84, R87, R88). -/
def fetchedWord : PortWord → Fetched
  | .command w =>
    match decodeCommand w with
    | .instr i => .instr i
    | .rejected _ => .illegal w
  | .engine req =>
    match decodeEngine req with
    | .instr i => .instr i
    | .rejected _ => .nothing

/-- What an input asks for.  A command that reset cuts short is abandoned, so only the reset is left of it (R191). -/
def fetchedInput : Input → Fetched
  | .word p => fetchedWord p
  | .reset => .resetAsserted
  | .resetDuring _ => .resetAsserted

/-- The host's next input, and the state with that input taken. -/
def fetch (s : State) : Fetched × State :=
  match s.inputs with
  | [] => (.nothing, s)
  | x :: rest => (fetchedInput x, { s with inputs := rest })

/-- The state with a port word as the next input. -/
def placeWord (p : PortWord) (s : State) : State := { s with inputs := .word p :: s.inputs }

/-- The outputs of the block between two steps (R80, R82). -/
structure PortView where
  /-- `cmd_ready`: between steps the block can accept a command (R198). -/
  cmdReady : Bool
  outValid : Bool
  /-- `out_data`, absent while `out_valid` is 0 (spec/93_implementation_defined.md U9). -/
  outData : Option Byte
  stPhase : BitVec 3
  stFault : BitVec 3
  stFcmd : CmdWord
  /-- `st_pos`, absent in IDLE, where it is meaningless (R82). -/
  stPos : Option Byte
  /-- `st_rate`, absent in IDLE, where it is meaningless (R82). -/
  stRate : Option Byte
  permPulse : Bool
  deriving DecidableEq, Repr

/-- What the ports show between two steps (R82). -/
def portView (s : State) : PortView where
  cmdReady := true
  outValid := s.outByte.isSome
  outData := s.outByte
  stPhase := s.phase.code
  stFault := s.fault.code
  stFcmd := s.fcmd
  stPos := if s.phase = .idle then none else some s.pos
  stRate := if s.phase = .idle then none else some s.rate
  permPulse := s.permPulse

end Sys2Proof.Machine
end

