-- ==== Sys2Proof/Machine/Step.lean ====
section
/-!
DEFINITION. One step: the block takes the host's next input and carries it out whole, the permutation it triggers
included (spec/00_scope.md R8; spec/20_memory.md R58; spec/30_encoding.md R80).
-/

namespace Sys2Proof.Machine

/-- One step. -/
def step (s : State) : Host.Outcome State Fault Refusal :=
  match fetch s with
  | (.nothing, t) => .next (quiet t)
  | (.resetAsserted, t) => .next (assertReset t)
  | (.illegal w, t) => illegalCommand w t
  | (.instr i, t) => exec i t

/-- The state with the opcode-table word `w` of `nbits` bits as the host's next input, so that the next step runs it. -/
def State.withFetchWord (s : State) (nbits w : Nat) : State := placeWord (tableWord nbits w) s

end Sys2Proof.Machine
end

