-- ==== Sys2Proof/Machine/Assembler.lean ====
section
/-!
DEFINITION. The assembler: what an assembler line expands to, its command words, and how a line of text is read
(spec/30_encoding.md R91 to R93).
-/

namespace Sys2Proof.Machine

/-- One ABSORB per byte, in order (R92). -/
def absorbAll (bytes : List Nat) : List Instr := bytes.map fun b => .absorb (BitVec.ofNat 8 b)

/-- The bytes of an ASCII text (R92). -/
def textBytes (text : List Char) : List Nat := text.map Char.toNat

/-- `n` SQUEEZE commands (R93). -/
def squeezeTimes (n : Nat) : List Instr := List.replicate n .squeeze

/-- INIT, the text, FINALIZE and `n` SQUEEZE commands (R93). -/
def shakeCommands (sec : Nat) (text : List Char) (n : Nat) : List Instr :=
  .init (BitVec.ofNat 10 sec) :: (absorbAll (textBytes text) ++ .finalize :: squeezeTimes n)

/-- The commands a well-formed line expands to (R91 to R93). -/
def expandLine : AsmLine → List Instr
  | .init sec => [.init (BitVec.ofNat 10 sec)]
  | .absorb b => absorbAll [b]
  | .finalize => [.finalize]
  | .squeeze => [.squeeze]
  | .absorbN bytes => absorbAll bytes
  | .absorbS text => absorbAll (textBytes text)
  | .squeezeN n => squeezeTimes n
  | .shake128 text n => shakeCommands 128 text n
  | .shake256 text n => shakeCommands 256 text n

/-- The port words of a line; none where the line is ill formed. -/
def assembleLine (l : AsmLine) : Option (List PortWord) :=
  if l.wf then some ((expandLine l).map encode) else none

/-- A character that separates words. -/
def isBlank (c : Char) : Bool := c == ' ' || c == '\t'

/-- The double quote that encloses a text operand. -/
def quoteMark : Char := Char.ofNat 34

/-- The text without the blanks at both ends. -/
def trimBlanks (cs : List Char) : List Char := ((cs.dropWhile isBlank).reverse.dropWhile isBlank).reverse

/-- The line up to the `;` that starts a comment (R91); a `;` inside a quoted text starts none. -/
def stripComment (quoted : Bool) : List Char → List Char
  | [] => []
  | c :: cs =>
    if c == ';' && !quoted then []
    else c :: stripComment (if c == quoteMark then !quoted else quoted) cs

/-- The value of a digit in base 10 or 16. -/
def digitValue (base : Nat) (c : Char) : Option Nat :=
  let v :=
    if '0' ≤ c ∧ c ≤ '9' then c.toNat - 48
    else if 'a' ≤ c ∧ c ≤ 'f' then c.toNat - 87
    else if 'A' ≤ c ∧ c ≤ 'F' then c.toNat - 55
    else 16
  if v < base then some v else none

/-- The number that digits spell. -/
def digitsValue (base : Nat) (cs : List Char) : Option Nat :=
  cs.foldl (fun acc c => acc.bind fun n => (digitValue base c).map fun d => base * n + d) (some 0)

/-- A number, decimal or `0x` hexadecimal (R91). -/
def readNumber (cs : List Char) : Option Nat :=
  match trimBlanks cs with
  | [] => none
  | ['0', 'x'] => none
  | '0' :: 'x' :: ds => digitsValue 16 ds
  | ds => digitsValue 10 ds

/-- The pieces between commas. -/
def splitCommas : List Char → List (List Char)
  | [] => [[]]
  | c :: cs =>
    match splitCommas cs with
    | [] => [[c]]
    | piece :: pieces => if c == ',' then [] :: piece :: pieces else (c :: piece) :: pieces

/-- The numbers of a comma-separated list; an empty operand is the empty list (R92). -/
def readNumbers (cs : List Char) : Option (List Nat) :=
  match trimBlanks cs with
  | [] => some []
  | ds => (splitCommas ds).mapM readNumber

/-- A quoted text and what follows it. -/
def readText (cs : List Char) : Option (List Char × List Char) :=
  match cs.dropWhile isBlank with
  | [] => none
  | c :: ds =>
    if c == quoteMark then
      match ds.dropWhile fun d => d != quoteMark with
      | [] => none
      | _ :: rest => some (ds.takeWhile fun d => d != quoteMark, rest)
    else none

/-- A quoted text alone. -/
def readTextAlone (cs : List Char) : Option (List Char) :=
  (readText cs).bind fun r => if trimBlanks r.2 = [] then some r.1 else none

/-- A quoted text, a comma and a number (R93). -/
def readTextAndNumber (cs : List Char) : Option (List Char × Nat) :=
  (readText cs).bind fun r =>
    match r.2.dropWhile isBlank with
    | ',' :: ds => (readNumber ds).map fun n => (r.1, n)
    | _ => none

/-- Nothing after the mnemonic. -/
def readNothing (l : AsmLine) (cs : List Char) : Option AsmLine := if trimBlanks cs = [] then some l else none

/-- The readers of the operands, by mnemonic (R91 to R93). -/
def mnemonicReaders : List (List Char × (List Char → Option AsmLine)) :=
  [ (['I', 'N', 'I', 'T'], fun cs => (readNumber cs).map .init),
    (['A', 'B', 'S', 'O', 'R', 'B'], fun cs => (readNumber cs).map .absorb),
    (['F', 'I', 'N', 'A', 'L', 'I', 'Z', 'E'], readNothing .finalize),
    (['S', 'Q', 'U', 'E', 'E', 'Z', 'E'], readNothing .squeeze),
    (['A', 'B', 'S', 'O', 'R', 'B', 'N'], fun cs => (readNumbers cs).map .absorbN),
    (['A', 'B', 'S', 'O', 'R', 'B', 'S'], fun cs => (readTextAlone cs).map .absorbS),
    (['S', 'Q', 'U', 'E', 'E', 'Z', 'E', 'N'], fun cs => (readNumber cs).map .squeezeN),
    (['S', 'H', 'A', 'K', 'E', '1', '2', '8'], fun cs => (readTextAndNumber cs).map fun r => .shake128 r.1 r.2),
    (['S', 'H', 'A', 'K', 'E', '2', '5', '6'], fun cs => (readTextAndNumber cs).map fun r => .shake256 r.1 r.2) ]

/-- A line of assembler text: at most one command and at most a comment.  The outer `none` is a line that is no
assembler text, `some none` a line with no command (R91).  The mnemonic is the longest run of upper-case letters and
digits, so a number needs a blank before it and a quoted text needs none: `ABSORBS"abc"` is read as `ABSORBS "abc"`
(DESIGN CHOICE, notes/assumptions/12.md; R91 to R93 do not say). -/
def readLine (line : List Char) : Option (Option AsmLine) :=
  match trimBlanks (stripComment false line) with
  | [] => some none
  | cs =>
    let name := cs.takeWhile fun c => c.isUpper || c.isDigit
    let rest := cs.dropWhile fun c => c.isUpper || c.isDigit
    (mnemonicReaders.find? fun r => r.1 == name).bind fun r => (r.2 rest).map some

end Sys2Proof.Machine
end

