-- ==== Sys2Proof/Safety.lean ====
section
/-!
DEFINITION. What counts as a safe state and a clean run, and the reference functions that claims compare the machine
with: the phase table of spec/41_sponge.md R145, the invariants of R148, the output stream of R142 and the end-to-end
function of R152.  The machine uses none of these.
-/

namespace Sys2Proof.Machine

/-- The phase after a command that raises no fault (R145, the entries that are phases). -/
def nextPhase : Instr → Phase → Phase
  | .init _, _ => .created
  | .absorb _, _ => .absorbing
  | .finalize, _ => .padded
  | .squeeze, _ => .squeezing
  | .permute, p => p

/-- The fault that a command raises while `fault = 0` (R145, the entries that are faults, row by row). -/
def tableCause : Phase → Instr → Option FaultCause
  | _, .permute => none
  | _, .init sec => if 800 ≤ sec.toNat then some .badParameter else none
  | .idle, _ => some .noContext
  | .created, .squeeze => some .squeezeBeforeFinalize
  | .created, _ => none
  | .absorbing, .squeeze => some .squeezeBeforeFinalize
  | .absorbing, _ => none
  | .padded, .absorb _ => some .absorbAfterFinalize
  | .padded, .finalize => some .finalizeRepeated
  | .padded, .squeeze => none
  | .squeezing, .absorb _ => some .absorbAfterFinalize
  | .squeezing, .finalize => some .finalizeRepeated
  | .squeezing, .squeeze => none

/-- A well-formed INIT with `sec <= 799`: the one command that the sticky fault does not block (R168). -/
def goodInit : Instr → Bool
  | .init sec => sec.toNat ≤ 799
  | _ => false

/-- The instruction arrives on the command port (R84, R86). -/
def onCommandPort : Instr → Bool
  | .permute => false
  | _ => true

/-- The 16-bit word of a command (R91); 0 for PERMUTE, which has none. -/
def commandWord (i : Instr) : CmdWord :=
  match encode i with
  | .command w => w
  | .engine _ => 0

/-- The rate is legal (R25). -/
def rateOk (s : State) : Prop := 1 ≤ s.rate.toNat ∧ s.rate.toNat ≤ Config.rateMax

/-- The cursor and the rate fit the phase: the ranges of R148. -/
def cursorFits (s : State) : Prop :=
  match s.phase with
  | .idle => True
  | .created => rateOk s ∧ s.pos = 0
  | .absorbing => rateOk s ∧ s.pos.toNat + 1 ≤ s.rate.toNat
  | .padded => rateOk s ∧ s.pos = s.rate
  | .squeezing => rateOk s ∧ 1 ≤ s.pos.toNat ∧ s.pos.toNat ≤ s.rate.toNat

/-- The recorded fault is one that can be raised in the phase: the IDLE row of R148, and the like for the other
phases. -/
def faultFits (s : State) : Prop :=
  match s.fault with
  | .noFault => True
  | .illegalCommand => True
  | .badParameter => True
  | .absorbAfterFinalize => s.phase = .padded ∨ s.phase = .squeezing
  | .squeezeBeforeFinalize => s.phase = .created ∨ s.phase = .absorbing
  | .finalizeRepeated => s.phase = .padded ∨ s.phase = .squeezing
  | .noContext => s.phase = .idle

/-- `fcmd` is 0 while there is no fault, and else a word that raises the recorded fault; and the never-cleared record
knows of it (R29, R160, R167, R168). -/
def faultRecorded (s : State) : Prop :=
  match s.fault with
  | .noFault => s.fcmd = 0
  | .illegalCommand => s.everFaulted = true ∧ commandWf s.fcmd = false
  | .badParameter => s.everFaulted = true ∧ ∃ sec, s.fcmd = initWord sec ∧ 800 ≤ sec.toNat
  | .absorbAfterFinalize => s.everFaulted = true ∧ ∃ b, s.fcmd = absorbWord b
  | .squeezeBeforeFinalize => s.everFaulted = true ∧ s.fcmd = squeezeWord
  | .finalizeRepeated => s.everFaulted = true ∧ s.fcmd = finalizeWord
  | .noContext =>
    s.everFaulted = true ∧ ((∃ b, s.fcmd = absorbWord b) ∨ s.fcmd = finalizeWord ∨ s.fcmd = squeezeWord)

/-- The invariant of the machine, for every input the host can give. -/
def State.Inv (s : State) : Prop := cursorFits s ∧ faultFits s ∧ faultRecorded s

/-- The host drives the command port and reset only; no test bench drives the engine port (R84). -/
def hostOnly (s : State) : Prop :=
  ∀ x ∈ s.inputs, ∀ req, x ≠ .word (.engine req)

/-- In CREATED all lanes are zero (R148); it holds where no test bench drives the engine port. -/
def freshIsZero (s : State) : Prop := s.phase = .created → s.lanes = zeroLanes

/-- The state after the fault entry with cause `c` on the word `w`, while `fault = 0`, written out: `fault`, `fcmd`, the
record, and no output (R167). -/
def raised (c : FaultCause) (w : CmdWord) (s : State) : State :=
  { s with fault := c, fcmd := w, everFaulted := true, outByte := none, permPulse := false }

/-- The state after a discarded command, written out: nothing changes, and there is no output (R168). -/
def discarded (s : State) : State := { s with outByte := none, permPulse := false }

/-- Instructions one after another, stopping at the first stop. -/
def execAll : List Instr → State → Result
  | [], s => .next s
  | i :: is, s =>
    match exec i s with
    | .next t => execAll is t
    | .fault r => .fault r
    | .refused r => .refused r

/-- Calls one after another, each a list of instructions: the chunking that R150 and R151 speak of. -/
def execCalls : List (List Instr) → State → Result
  | [], s => .next s
  | call :: calls, s =>
    match execAll call s with
    | .next t => execCalls calls t
    | .fault r => .fault r
    | .refused r => .refused r

/-- Two lane arrays XORed lane by lane. -/
def xorLanes (a b : Lanes) : Lanes := Vector.ofFn fun i : Fin 25 => a[i] ^^^ b[i]

/-- The `t`-th place of the walk that generates the rotation offsets (spec/40_permutation.md R109). -/
def walkPlace : Nat → Fin 5 × Fin 5
  | 0 => (1, 0)
  | t + 1 => ((walkPlace t).2, 2 * (walkPlace t).1 + 3 * (walkPlace t).2)

/-- One step of the register that generates the round constants: prepend a 0, fold bit 8 into bits 0, 4, 5 and 6, drop
bit 8 (spec/40_permutation.md R117). -/
def lfsrStep (r : List Bool) : List Bool :=
  let e := false :: r
  let top := e.getD 8 false
  [e.getD 0 false ^^ top, e.getD 1 false, e.getD 2 false, e.getD 3 false,
   e.getD 4 false ^^ top, e.getD 5 false ^^ top, e.getD 6 false ^^ top, e.getD 7 false]

/-- `rc(t)` (spec/40_permutation.md R117). -/
def rcBit (t : Nat) : Bool :=
  if t % 255 = 0 then true
  else (lfsrStep^[t % 255] [true, false, false, false, false, false, false, false]).headD false

/-- Bit `2^j - 1` is `rc(j + 7*ir)` for `j = 0..6`, every other bit is 0 (spec/40_permutation.md R117). -/
def generatedRc (ir : Nat) : Lane :=
  (List.range 7).foldl (fun v j => if rcBit (j + 7 * ir) then v ||| ((1 : Lane) <<< (2 ^ j - 1)) else v) 0

/-- `permute` applied `k` times. -/
def permuteTimes : Nat → Lanes → Lanes
  | 0, a => a
  | k + 1, a => permuteTimes k (permute a)

/-- The byte at position `p`, 0 outside the state byte space. -/
def byteAt (a : Lanes) (p : Nat) : Byte := (memRead p a).getD 0

/-- The `m`-th byte of the output stream from the lanes that FINALIZE leaves (R142). -/
def streamByte (rate : Nat) (a : Lanes) (m : Nat) : Byte := byteAt (permuteTimes (1 + m / rate) a) (m % rate)

/-- The first `n` bytes of the output stream (R142). -/
def stream (rate : Nat) (a : Lanes) (n : Nat) : List Byte := (List.range n).map (streamByte rate a)

/-- The padding after a message of `n` bytes (R152). -/
def padding (rate n : Nat) : List Byte :=
  let q := rate - n % rate
  if q = 1 then [0x9F] else 0x1F :: (List.replicate (q - 2) 0x00 ++ [0x80])

/-- Eight bytes as a lane, the first the least significant (spec/20_memory.md R52). -/
def packLane (b : Nat → Byte) : Lane :=
  b 7 ++ b 6 ++ b 5 ++ b 4 ++ b 3 ++ b 2 ++ b 1 ++ b 0

/-- The lanes with the bytes from position 0 on XORed with a block (R152). -/
def xorBlock (a : Lanes) (block : List Byte) : Lanes :=
  Vector.ofFn fun i : Fin 25 => a[i] ^^^ packLane fun k => block.getD (8 * i.val + k) 0

/-- The first `n` blocks of `rate` bytes absorbed, each followed by a permutation (R152). -/
def absorbBlocks (rate : Nat) : Nat → List Byte → Lanes → Lanes
  | 0, _, a => a
  | n + 1, bytes, a => absorbBlocks rate n (bytes.drop rate) (permute (xorBlock a (bytes.take rate)))

/-- The lanes after `bytes` absorbed into the lanes `a` of a fresh context: every full block followed by a permutation,
and the bytes that fill no block XORed in (R134, R152). -/
def absorbed (rate : Nat) (bytes : List Byte) (a : Lanes) : Lanes :=
  let full := bytes.length / rate
  xorBlock (absorbBlocks rate full bytes a) (bytes.drop (full * rate))

/-- The lanes after a padded message whose length is a positive multiple of `rate`: every block but the last is
followed by a permutation (R152). -/
def absorbPadded (rate : Nat) (bytes : List Byte) : Lanes :=
  let full := bytes.length / rate - 1
  xorBlock (absorbBlocks rate full bytes zeroLanes) (bytes.drop (full * rate))

/-- The end-to-end function (R152): SHAKE128 for `sec = 128`, SHAKE256 for `sec = 256`. -/
def shake (sec : BitVec 10) (message : List Byte) (n : Nat) : List Byte :=
  let r := 200 - sec.toNat / 4
  stream r (absorbPadded r (message ++ padding r message.length)) n

end Sys2Proof.Machine
end

