-- ==== Sys2Proof/Certificates/Slice0/Obligations.lean ====
section
/-!
DEFINITION. The statements for the provers, from the numbered rules of spec/.
-/

open Sys2Proof Sys2Proof.Machine

/- Fetching and decoding. -/

/-- When the host's next input is a port word that decodes to an instruction, the step takes that input off the host's
list and is `exec` of that instruction; nothing else stands around it.  (The list is the model's,
notes/assumptions/3.md.) -/
def Obligations.StepRunsDecodedInstruction : Prop :=
  ∀ (s : State) (p : PortWord) (rest : List Input) (i : Instr),
    s.inputs = .word p :: rest → decode p = .instr i → step s = exec i { s with inputs := rest }

/-- R161: a command word whose opcode is 0 or 5 and above, or that sets a reserved bit, raises ILLEGAL_COMMAND in every
phase and `fcmd` receives it; while a fault is recorded it is discarded (R168). -/
def Obligations.IllegalWordRaisesIllegalCommand : Prop :=
  ∀ (s : State) (w : CmdWord) (rest : List Input),
    s.inputs = .word (.command w) :: rest →
    (opField w = 0 ∨ 5 ≤ (opField w).toNat ∨ (opField w = 1 ∧ w.extractLsb' 10 2 ≠ 0) ∨
      (opField w = 2 ∧ w.extractLsb' 8 4 ≠ 0) ∨ ((opField w = 3 ∨ opField w = 4) ∧ w.extractLsb' 0 12 ≠ 0)) →
    step s = .next (if s.fault = .noFault then raised .illegalCommand w { s with inputs := rest }
      else discarded { s with inputs := rest })

/-- With no command presented, and with the engine-port word 0, a step changes nothing but the output ports, which show
no byte and no pulse.  That an empty host list gives such an idle step is the model's choice (DESIGN CHOICE,
notes/assumptions/3.md; the spec's steps are issued words), and that the engine-port word 0 gives one is read from R84's
"no request" (DEDUCED, notes/assumptions/8.md). -/
def Obligations.StepWithoutRequestChangesNothing : Prop :=
  (∀ s : State, s.inputs = [] → step s = .next (discarded s)) ∧
  (∀ (s : State) (rest : List Input), s.inputs = .word (.engine 0) :: rest →
    step s = .next (discarded { s with inputs := rest }))

/-- Words of the spec's own table of encodings (95_test_vectors.md V1, V2), read by the decoder. -/
def Obligations.DecoderReadsSpecWords : Prop :=
  decodeCommand 0x1080 = .instr (.init 128) ∧ decodeCommand 0x13FF = .instr (.init 1023) ∧
  decodeCommand 0x2061 = .instr (.absorb 0x61) ∧ decodeCommand 0x3000 = .instr .finalize ∧
  decodeCommand 0x4000 = .instr .squeeze ∧ decodeEngine 1 = .instr .permute ∧
  decodeCommand 0x1400 = .rejected .reservedBitSet ∧ decodeCommand 0x4020 = .rejected .reservedBitSet ∧
  decodeCommand 0x5000 = .rejected .illegalOpcode ∧ decodeCommand 0xFFFF = .rejected .illegalOpcode

/-- Decoding and encoding are inverse, both ways, for every instruction and every word of both ports: no operand bit is
lost, and a word has one meaning. -/
def Obligations.DecodeAndEncodeAgree : Prop :=
  ∀ (p : PortWord) (i : Instr), decode p = .instr i ↔ encode i = p

/-- What the command-port decoder answers for each of the 65536 words, in numbers: the fields of R81 and R85, and a
rejection exactly for the words that no row of R86 selects. -/
def Obligations.DecoderFollowsOpcodeMap : Prop :=
  ∀ w : CmdWord,
    match decodeCommand w with
    | .instr (.init sec) => w.toNat / 1024 = 4 ∧ sec.toNat = w.toNat % 1024
    | .instr (.absorb b) => w.toNat / 256 = 32 ∧ b.toNat = w.toNat % 256
    | .instr .finalize => w.toNat = 12288
    | .instr .squeeze => w.toNat = 16384
    | .instr .permute => False
    | .rejected .reservedBitSet => 1 ≤ w.toNat / 4096 ∧ w.toNat / 4096 ≤ 4 ∧ commandWf w = false
    | .rejected .illegalOpcode => (w.toNat / 4096 = 0 ∨ 5 ≤ w.toNat / 4096) ∧ commandWf w = false
    | .rejected .noRequest => False

/-- R91 to R93: the words of the assembler's commands (the table of R91) and what its pseudo-instructions expand to, for
operands in their ranges. -/
def Obligations.AssemblerExpandsLines : Prop :=
  (∀ n, n ≤ 1023 → assembleLine (.init n) = some [.command (0x1000 ||| BitVec.ofNat 16 n)]) ∧
  (∀ b, b ≤ 255 → assembleLine (.absorb b) = some [.command (0x2000 ||| BitVec.ofNat 16 b)]) ∧
  assembleLine .finalize = some [.command 0x3000] ∧ assembleLine .squeeze = some [.command 0x4000] ∧
  (∀ bytes : List Nat, (∀ b ∈ bytes, b ≤ 255) →
    assembleLine (.absorbN bytes) = some (bytes.map fun b => .command (0x2000 ||| BitVec.ofNat 16 b))) ∧
  (∀ text : List Char, (∀ c ∈ text, c.toNat ≤ 127) →
    assembleLine (.absorbS text) = some (text.map fun c => .command (0x2000 ||| BitVec.ofNat 16 c.toNat)) ∧
    ∀ n, assembleLine (.shake128 text n) = some (.command 0x1080 ::
        (text.map fun c => .command (0x2000 ||| BitVec.ofNat 16 c.toNat)) ++
        .command 0x3000 :: List.replicate n (.command 0x4000)) ∧
      assembleLine (.shake256 text n) = some (.command 0x1100 ::
        (text.map fun c => .command (0x2000 ||| BitVec.ofNat 16 c.toNat)) ++
        .command 0x3000 :: List.replicate n (.command 0x4000))) ∧
  (∀ n, assembleLine (.squeezeN n) = some (List.replicate n (.command 0x4000)))

/- The byte view of the state. -/

/-- R52: `MemRead`, `MemWrite` and `MemXor` by bits: byte position `p` is bits `8*(p mod 8)` and up of lane `p div 8`, a
write or a XOR changes that byte as it says and no other, and a lane is its eight bytes, the first the least
significant. -/
def Obligations.ByteMapIsLittleEndianInLanes : Prop :=
  (∀ (a : Lanes) (p : Nat) (h : p < 200), ∃ b, memRead p a = some b ∧
    ∀ k, k < 8 → b.getLsbD k = (a[p / 8]).getLsbD (8 * (p % 8) + k)) ∧
  (∀ (a : Lanes) (p : Nat) (v : Byte), p < 200 → ∃ a', memWrite p v a = some a' ∧ memRead p a' = some v ∧
    ∀ q, q ≠ p → memRead q a' = memRead q a) ∧
  (∀ (a : Lanes) (p : Nat) (v : Byte), p < 200 → ∃ a', memXor p v a = some a' ∧
    memRead p a' = (memRead p a).map (· ^^^ v) ∧ ∀ q, q ≠ p → memRead q a' = memRead q a) ∧
  (∀ (a : Lanes) (i : Fin 25), a[i] = packLane fun k => byteAt a (8 * i.val + k))

/-- The byte view is exactly the 200 positions, and `MemXor` is a write of the XOR of what was there (R10, R56). -/
def Obligations.ByteAccessIsPartial : Prop :=
  ∀ (a : Lanes) (p : Nat) (v : Byte),
    ((memRead p a).isSome = true ↔ p < 200) ∧
    memXor p v a = (memRead p a).bind fun b => memWrite p (b ^^^ v) a

/- The permutation engine. -/

/-- R103: the barrel rotates: bit `i` of the input is bit `(i + n) mod 64` of the result, and the amount 0 returns the
input. -/
def Obligations.BarrelRotatesLeft : Prop :=
  ∀ v : Lane, rol64 v 0 = v ∧
    ∀ n i : Nat, n < 64 → i < 64 → (rol64 v n).getLsbD ((i + n) % 64) = v.getLsbD i

/-- R104 to R106: THETA by columns, the parities taken from the lanes as they are when the stage begins; a state whose
five parities are zero is unchanged. -/
def Obligations.ThetaAddsColumnParities : Prop :=
  ∀ a : Lanes,
    let c : Fin 5 → Lane := fun x =>
      a[x.val] ^^^ a[x.val + 5] ^^^ a[x.val + 10] ^^^ a[x.val + 15] ^^^ a[x.val + 20]
    (∀ x y : Fin 5, laneAt (theta a) x y = laneAt a x y ^^^ (c (x + 4) ^^^ rol64 (c (x + 1)) 1)) ∧
    ((∀ x, c x = 0) → theta a = a)

/-- R107 and R109: RHO leaves lane 0 and rotates the lane at the `t`-th place of the generating walk by the `t`-th
triangular number mod 64; the walk visits every other lane. -/
def Obligations.RhoRotatesByTriangularOffsets : Prop :=
  ∀ a : Lanes,
    laneAt (rho a) 0 0 = laneAt a 0 0 ∧
    (∀ t, t < 24 → laneAt (rho a) (walkPlace t).1 (walkPlace t).2 =
      rol64 (laneAt a (walkPlace t).1 (walkPlace t).2) ((t + 1) * (t + 2) / 2 % 64)) ∧
    (∀ x y : Fin 5, (x, y) ≠ (0, 0) → ∃ t, t < 24 ∧ walkPlace t = (x, y))

/-- R110: PI moves the lane at `(x, y)` to `(y, (2*x + 3*y) mod 5)`, all at once. -/
def Obligations.PiMovesLanes : Prop :=
  ∀ (a : Lanes) (x y : Fin 5), laneAt (pi a) y (2 * x + 3 * y) = laneAt a x y

/-- R112: the fused walk with one carried lane computes PI after RHO. -/
def Obligations.FusedWalkIsRhoThenPi : Prop :=
  ∀ a : Lanes, rhoPiWalk a = pi (rho a)

/-- R113: CHI XORs each lane with the next lane's complement ANDed with the lane after it, indices mod 5 within the row;
a row of all-zero or of all-one lanes is unchanged. -/
def Obligations.ChiMixesRows : Prop :=
  (∀ (a : Lanes) (x y : Fin 5),
    laneAt (chi a) x y = laneAt a x y ^^^ (~~~ laneAt a (x + 1) y &&& laneAt a (x + 2) y)) ∧
  (∀ (a : Lanes) (y : Fin 5), (∀ x, laneAt a x y = 0) ∨ (∀ x, laneAt a x y = BitVec.allOnes 64) →
    ∀ x, laneAt (chi a) x y = laneAt a x y)

/-- R115 with R117: IOTA XORs into lane 0 the round constant that the generating register gives, never zero, and leaves
every other lane. -/
def Obligations.IotaAddsGeneratedConstant : Prop :=
  ∀ (ir : Fin 24) (a : Lanes),
    (iota ir a)[0] = a[0] ^^^ generatedRc ir.val ∧ (iota ir a)[0] ≠ a[0] ∧
    ∀ (i : Nat) (h : i < 25), i ≠ 0 → (iota ir a)[i] = a[i]

/-- THETA, RHO and PI are linear over XOR, so that CHI is the only stage with an AND (R118, derived there). -/
def Obligations.ThetaRhoPiAreLinear : Prop :=
  ∀ a b : Lanes,
    theta (xorLanes a b) = xorLanes (theta a) (theta b) ∧
    rho (xorLanes a b) = xorLanes (rho a) (rho b) ∧
    pi (xorLanes a b) = xorLanes (pi a) (pi b)

/-- R101 and R102: PERMUTE answers a next state in every state: rounds 0 to 23 of theta, rho, pi, chi, iota in that
order on the lanes, one PERMUTE event, and nothing else changes. -/
def Obligations.PermuteAppliesTwentyFourRounds : Prop :=
  ∀ s : State, exec .permute s = .next { s with
    lanes := (List.finRange 24).foldl (fun a ir => iota ir (chi (pi (rho (theta a))))) s.lanes
    perms := s.perms + 1
    permPulse := true
    outByte := none }

/- The commands. -/

/-- R36 and R131: INIT whole.  With `sec <= 799` it creates a fresh context in every phase and also out of a fault; with
`sec >= 800` it raises BAD_PARAMETER, or is discarded where a fault is already recorded. -/
def Obligations.InitCreatesFreshContext : Prop :=
  ∀ (s : State) (sec : BitVec 10),
    (sec.toNat ≤ 799 → exec (.init sec) s = .next { s with
      lanes := Vector.replicate 25 0
      rate := BitVec.ofNat 8 (200 - sec.toNat / 4)
      pos := 0
      phase := .created
      fault := .noFault
      fcmd := 0
      outByte := none
      permPulse := false }) ∧
    (800 ≤ sec.toNat → s.fault = .noFault →
      exec (.init sec) s = .next (raised .badParameter (0x1000 ||| sec.setWidth 16) s)) ∧
    (800 ≤ sec.toNat → s.fault ≠ .noFault → exec (.init sec) s = .next (discarded s))

/-- R133: the rate and the capacity that INIT fixes: 168 bytes for 128, 136 for 256, always between 1 and 200, and a
capacity of `8 * floor(sec/4)` bits, which is `2 * sec` for a multiple of 4. -/
def Obligations.InitFixesRateAndCapacity : Prop :=
  ∀ (s t : State) (sec : BitVec 10), sec.toNat ≤ 799 → exec (.init sec) s = .next t →
    t.rate.toNat = 200 - sec.toNat / 4 ∧ 1 ≤ t.rate.toNat ∧ t.rate.toNat ≤ 200 ∧
    1600 - 8 * t.rate.toNat = 8 * (sec.toNat / 4) ∧
    (sec.toNat % 4 = 0 → 1600 - 8 * t.rate.toNat = 2 * sec.toNat) ∧
    (sec = 128 → t.rate = 168) ∧ (sec = 256 → t.rate = 136)

/-- A successful INIT leaves nothing of what the lanes, the rate, the cursor, the phase and the fault registers held: the
old context is abandoned without trace (R131), and the values that reset leaves unspecified cannot reach a context. -/
def Obligations.InitForgetsOldContext : Prop :=
  ∀ (s : State) (sec : BitVec 10) (a : Lanes) (r p : Byte) (ph : Phase) (f : FaultCause) (w : CmdWord),
    sec.toNat ≤ 799 →
    exec (.init sec) { s with lanes := a, rate := r, pos := p, phase := ph, fault := f, fcmd := w } =
      exec (.init sec) s

/-- R134: ABSORB whole.  In CREATED and ABSORBING it XORs the byte at the cursor and advances; when that fills the block
it permutes at once and the cursor returns to 0.  In IDLE it raises NO_CONTEXT, in PADDED and SQUEEZING
ABSORB_AFTER_FINALIZE, and while a fault is recorded it is discarded. -/
def Obligations.AbsorbXorsByteAndPermutesFullBlock : Prop :=
  ∀ (s : State) (b : Byte),
    (s.fault = .noFault → s.phase = .created ∨ s.phase = .absorbing → s.pos.toNat + 1 ≤ s.rate.toNat →
      s.rate.toNat ≤ 200 → ∃ a, memXor (cursorPosition s) b s.lanes = some a ∧
        exec (.absorb b) s = .next
          (if s.pos.toNat + 1 = s.rate.toNat then { s with
            lanes := permute a, pos := 0, phase := .absorbing, perms := s.perms + 1, permPulse := true, outByte := none }
          else { s with
            lanes := a, pos := BitVec.ofNat 8 (s.pos.toNat + 1), phase := .absorbing, permPulse := false,
            outByte := none })) ∧
    (s.fault = .noFault → s.phase = .idle →
      exec (.absorb b) s = .next (raised .noContext (0x2000 ||| b.setWidth 16) s)) ∧
    (s.fault = .noFault → s.phase = .padded ∨ s.phase = .squeezing →
      exec (.absorb b) s = .next (raised .absorbAfterFinalize (0x2000 ||| b.setWidth 16) s)) ∧
    (s.fault ≠ .noFault → exec (.absorb b) s = .next (discarded s))

/-- R138: FINALIZE whole.  In CREATED and ABSORBING it XORs 0x1F at the cursor and then 0x80 at `rate - 1`, puts the
cursor at the rate and runs no permutation; elsewhere it raises NO_CONTEXT or FINALIZE_REPEATED, and while a fault is
recorded it is discarded. -/
def Obligations.FinalizePadsAndMovesCursorToRate : Prop :=
  ∀ s : State,
    (s.fault = .noFault → s.phase = .created ∨ s.phase = .absorbing → s.pos.toNat + 1 ≤ s.rate.toNat →
      s.rate.toNat ≤ 200 →
      ∃ a a', memXor (cursorPosition s) 0x1F s.lanes = some a ∧ memXor (s.rate.toNat - 1) 0x80 a = some a' ∧
        exec .finalize s = .next { s with
          lanes := a', pos := s.rate, phase := .padded, permPulse := false, outByte := none }) ∧
    (s.fault = .noFault → s.phase = .idle → exec .finalize s = .next (raised .noContext 0x3000 s)) ∧
    (s.fault = .noFault → s.phase = .padded ∨ s.phase = .squeezing →
      exec .finalize s = .next (raised .finalizeRepeated 0x3000 s)) ∧
    (s.fault ≠ .noFault → exec .finalize s = .next (discarded s))

/-- R139: with the cursor at `rate - 1` both padding bytes fall on that one byte, which is XORed with 0x9F, and every
other byte is unchanged; with the cursor below it the two bytes are XORed with 0x1F and 0x80. -/
def Obligations.FinalizeOverlapXorsBothPadBytes : Prop :=
  ∀ s : State, s.fault = .noFault → s.phase = .created ∨ s.phase = .absorbing →
    s.pos.toNat + 1 ≤ s.rate.toNat → s.rate.toNat ≤ 200 →
    ∃ t, exec .finalize s = .next t ∧
      (∀ q, q ≠ cursorPosition s → q ≠ lastRatePosition s → memRead q t.lanes = memRead q s.lanes) ∧
      (if cursorPosition s = lastRatePosition s then
        memRead (cursorPosition s) t.lanes = (memRead (cursorPosition s) s.lanes).map (· ^^^ 0x9F)
      else
        memRead (cursorPosition s) t.lanes = (memRead (cursorPosition s) s.lanes).map (· ^^^ 0x1F) ∧
        memRead (lastRatePosition s) t.lanes = (memRead (lastRatePosition s) s.lanes).map (· ^^^ 0x80))

/-- R141: SQUEEZE whole.  In PADDED and SQUEEZING it permutes first when the cursor is at the rate, then outputs the byte
at the cursor and advances; elsewhere it raises NO_CONTEXT or SQUEEZE_BEFORE_FINALIZE without an output byte, and while
a fault is recorded it is discarded. -/
def Obligations.SqueezeOutputsByteAtCursor : Prop :=
  ∀ s : State,
    (s.fault = .noFault → s.phase = .padded ∨ s.phase = .squeezing → s.pos.toNat ≤ s.rate.toNat →
      1 ≤ s.rate.toNat → s.rate.toNat ≤ 200 →
      if s.pos = s.rate then
        ∃ b, memRead 0 (permute s.lanes) = some b ∧ exec .squeeze s = .next { s with
          lanes := permute s.lanes, pos := 1, phase := .squeezing, outByte := some b, outputs := s.outputs ++ [b],
          perms := s.perms + 1, permPulse := true }
      else
        ∃ b, memRead (cursorPosition s) s.lanes = some b ∧ exec .squeeze s = .next { s with
          pos := BitVec.ofNat 8 (s.pos.toNat + 1), phase := .squeezing, outByte := some b,
          outputs := s.outputs ++ [b], permPulse := false }) ∧
    (s.fault = .noFault → s.phase = .idle → exec .squeeze s = .next (raised .noContext 0x4000 s)) ∧
    (s.fault = .noFault → s.phase = .created ∨ s.phase = .absorbing →
      exec .squeeze s = .next (raised .squeezeBeforeFinalize 0x4000 s)) ∧
    (s.fault ≠ .noFault → exec .squeeze s = .next (discarded s))

/- Faults. -/

/-- R167 with the causes of R160: a command that the phase table gives a fault, in a state with no fault, changes `fault`
and `fcmd` to the cause and its own word, marks the record, and changes nothing else: no output byte, no permutation. -/
def Obligations.FaultEntryChangesOnlyFaultRegisters : Prop :=
  ∀ (s : State) (i : Instr) (c : FaultCause),
    s.fault = .noFault → tableCause s.phase i = some c → exec i s = .next (raised c (commandWord i) s)

/-- R168: while a fault is recorded every command word but INIT with `sec <= 799`, an ill-formed word included, is
discarded: nothing changes, not even `fault` and `fcmd`, and there is no output byte and no permutation. -/
def Obligations.StickyFaultDiscardsCommands : Prop :=
  (∀ (s : State) (i : Instr), s.fault ≠ .noFault → onCommandPort i = true → goodInit i = false →
    exec i s = .next (discarded s)) ∧
  (∀ (s : State) (w : CmdWord) (rest : List Input), s.fault ≠ .noFault → s.inputs = .word (.command w) :: rest →
    commandWf w = false → step s = .next (discarded { s with inputs := rest }))

/-- R145: the complete transition table, for the four commands and for ILLEGAL words in every phase and fault, in states
that meet the invariant: the phase and the fault after each; and with a fault recorded nothing changes at all but for
an INIT with `sec <= 799`. -/
def Obligations.PhaseTableIsFollowed : Prop :=
  (∀ (s : State) (i : Instr), s.Inv → onCommandPort i = true →
    ∃ t, exec i s = .next t ∧
      (if s.fault = .noFault ∨ goodInit i = true then
        match tableCause s.phase i with
        | some c => t.phase = s.phase ∧ t.fault = c
        | none => t.phase = nextPhase i s.phase ∧ t.fault = .noFault
      else t = discarded s)) ∧
  (∀ (s : State) (w : CmdWord) (rest : List Input) (why : Reject),
    s.inputs = .word (.command w) :: rest → decodeCommand w = .rejected why →
    ∃ t, step s = .next t ∧
      (if s.fault = .noFault then t.phase = s.phase ∧ t.fault = .illegalCommand
      else t = discarded { s with inputs := rest }))

/-- The record that some fault occurred is never cleared, by no step, reset included, and every fault that a step
records marks it (R168; that reset keeps it is the model's choice, notes/assumptions/5.md). -/
def Obligations.FaultRecordIsNeverCleared : Prop :=
  ∀ s t : State, step s = .next t →
    (s.everFaulted = true → t.everFaulted = true) ∧
    (s.fault = .noFault → t.fault ≠ .noFault → t.everFaulted = true)

/- Reset. -/

/-- The values that R35 states for reset, in the model's state after reset. -/
def Obligations.ResetStateHoldsStatedValues : Prop :=
  State.reset.phase.code = 0 ∧ State.reset.fault.code = 0 ∧ State.reset.fcmd = 0 ∧
  State.reset.outByte = none ∧ State.reset.permPulse = false

/-- R190: reset is enabled in every state and leads to IDLE with no fault, `fcmd = 0`, no output byte and no pulse,
whatever the lanes, the rate and the cursor then hold.  The clauses that the record (`outputs`, `perms`) is kept are the
model's choice (DESIGN CHOICE, notes/assumptions/5.md; R204 counts a run from reset), and `cmdReady` is 1 in every view of
the ports that the model gives, since it has no time within a step. -/
def Obligations.ResetIsEnabledInEveryState : Prop :=
  ∀ (s : State) (rest : List Input), s.inputs = .reset :: rest →
    ∃ t, step s = .next t ∧ t.phase = .idle ∧ t.fault = .noFault ∧ t.fcmd = 0 ∧ t.outByte = none ∧
      t.permPulse = false ∧ (portView t).cmdReady = true ∧ t.inputs = rest ∧ t.outputs = s.outputs ∧ t.perms = s.perms

/-- A command that reset cuts short is abandoned: `phase`, `fault` and `fcmd` are those of the reset alone, and no output
byte is produced for it (R191).  Two parts of the equality are the model's choice.  That the lanes, the rate and the
cursor are those of the reset alone holds only because the free values do not depend on the command that reset cut short
(DESIGN CHOICE, unsafe, notes/assumptions/2.md; R35 and R191 leave the three unspecified).  That the record is that of
the reset alone, no PERMUTE event and no fault, is a choice too (DESIGN CHOICE, unsafe, notes/assumptions/5.md; R191 and
R204 do not say it). -/
def Obligations.ResetAbandonsCommand : Prop :=
  ∀ (s : State) (p : PortWord) (rest : List Input), s.inputs = .resetDuring p :: rest →
    step s = step { s with inputs := .reset :: rest } ∧ ∀ t, step s = .next t → t.outputs = s.outputs ∧ t.outByte = none

/-- What the lanes, the rate and the cursor hold in IDLE cannot be observed: two states in IDLE that differ in them only
show the same on every port after any command, with the same record (R35 says so of the values reset leaves).  That the
ports agree rests on `portView` showing `st_pos` and `st_rate` as absent in IDLE, the model's choice (DESIGN CHOICE,
notes/assumptions/11.md; R82 calls them meaningless there).  Illegal words are IllegalWordRaisesIllegalCommand's. -/
def Obligations.UnspecifiedValuesCannotBeObserved : Prop :=
  ∀ (s : State) (a : Lanes) (r p : Byte) (i : Instr), s.phase = .idle → onCommandPort i = true →
    ∃ t t', exec i s = .next t ∧ exec i { s with lanes := a, rate := r, pos := p } = .next t' ∧
      portView t = portView t' ∧ t.outputs = t'.outputs ∧ t.perms = t'.perms ∧
      (t.phase ≠ .idle → t = t')

/- Frames. -/

/-- What instructions leave unchanged when `exec` gives a next state: the host's list and the free-value counter,
always; the rate, but for INIT; the output record and the output port (no byte), but for SQUEEZE; the count of
permutations, but for ABSORB, SQUEEZE and PERMUTE; and for PERMUTE the cursor, the phase, the fault registers and the
fault record. -/
def Obligations.RegistersChangeOnlyByTheirInstructions : Prop :=
  ∀ (i : Instr) (s t : State), exec i s = .next t →
    t.inputs = s.inputs ∧ t.freeCount = s.freeCount ∧
    ((∀ sec, i ≠ .init sec) → t.rate = s.rate) ∧
    (i ≠ .squeeze → t.outputs = s.outputs ∧ t.outByte = none) ∧
    ((∀ b, i ≠ .absorb b) → i ≠ .squeeze → i ≠ .permute → t.perms = s.perms ∧ t.permPulse = false) ∧
    (i = .permute → t.pos = s.pos ∧ t.phase = s.phase ∧ t.fault = s.fault ∧ t.fcmd = s.fcmd ∧
      t.everFaulted = s.everFaulted)

/-- The bytes of the state that a command stores to: ABSORB changes only the byte at the cursor and FINALIZE only those
at the cursor and at `rate - 1`, SQUEEZE none, as long as no permutation runs; in each case every other byte of the 200
reads as before.  An ABSORB that executes without a permutation XORs its byte in. -/
def Obligations.CommandsStoreOnlyTheirBytes : Prop :=
  (∀ (s t : State) (b : Byte), exec (.absorb b) s = .next t → t.perms = s.perms →
    (∀ q, q ≠ cursorPosition s → memRead q t.lanes = memRead q s.lanes) ∧
    (t.pos ≠ s.pos → memRead (cursorPosition s) t.lanes = (memRead (cursorPosition s) s.lanes).map (· ^^^ b))) ∧
  (∀ s t : State, exec .finalize s = .next t →
    ∀ q, q ≠ cursorPosition s → q ≠ lastRatePosition s → memRead q t.lanes = memRead q s.lanes) ∧
  (∀ s t : State, exec .squeeze s = .next t → t.perms = s.perms →
    ∀ q, memRead q t.lanes = memRead q s.lanes)

/-- R146: the engine is invoked in exactly two places: by an ABSORB that executes and whose byte fills the block, and by
a SQUEEZE that executes with the cursor at the rate; then once, and the cursor is reset to 0 (SQUEEZE then advances it
to 1).  No other command, and no reset, invokes it.  (Illegal words are IllegalWordRaisesIllegalCommand's.) -/
def Obligations.PermutationTriggerIsCursorAtRate : Prop :=
  (∀ (i : Instr) (s t : State), onCommandPort i = true → exec i s = .next t →
    if s.fault = .noFault ∧ tableCause s.phase i = none ∧
        ((∃ b, i = .absorb b) ∧ s.pos + 1 = s.rate ∨ i = .squeeze ∧ s.pos = s.rate) then
      t.perms = s.perms + 1 ∧ t.permPulse = true ∧ t.pos = (if i = .squeeze then 1 else 0)
    else t.perms = s.perms ∧ t.permPulse = false) ∧
  (∀ (s t : State) (rest : List Input), s.inputs = .reset :: rest → step s = .next t → t.permPulse = false)

/-- R83: a SQUEEZE that does not fault produces exactly one output byte; no other command and no faulting or discarded
command produces one. -/
def Obligations.OnlySqueezeProducesOutput : Prop :=
  ∀ (i : Instr) (s t : State), exec i s = .next t →
    if i = .squeeze ∧ s.fault = .noFault ∧ tableCause s.phase i = none then
      ∃ b, t.outByte = some b ∧ t.outputs = s.outputs ++ [b]
    else t.outByte = none ∧ t.outputs = s.outputs

/-- The record of a run follows the ports step by step: it gains the byte on the output port, and one PERMUTE event for
each pulse (R34, R204; the record is the model's, notes/assumptions/4.md). -/
def Obligations.RecordFollowsPorts : Prop :=
  ∀ s t : State, step s = .next t →
    t.outputs = s.outputs ++ t.outByte.toList ∧ t.perms = s.perms + t.permPulse.toNat

/- Invariants and safety. -/

/-- Every step keeps the invariant (R148, derived there; the rows for phases other than IDLE and the record of the
faulting word are derived in the same way). -/
def Obligations.InvariantKeptByEveryStep : Prop :=
  ∀ s t : State, s.Inv → step s = .next t → t.Inv

/-- The invariant holds after reset. -/
def Obligations.InvariantHoldsAtReset : Prop := State.reset.Inv

/-- From every state that meets the invariant a step answers a next state: no access leaves the state byte space, and
every command completes (R56 and R201, derived there). -/
def Obligations.EveryStepCompletes : Prop :=
  ∀ s : State, s.Inv → ∃ t, step s = .next t

/-- In CREATED all lanes are zero, as long as no test bench drives the engine port (R148, derived there). -/
def Obligations.CreatedLanesStayZero : Prop :=
  ∀ s t : State, hostOnly s → freshIsZero s → step s = .next t → hostOnly t ∧ freshIsZero t

/-- No command but INIT changes a byte of the capacity region unless the permutation runs (R60). -/
def Obligations.CapacityIsNotTouchedDirectly : Prop :=
  ∀ (i : Instr) (s t : State), s.Inv → (∀ sec, i ≠ .init sec) → exec i s = .next t → t.perms = s.perms →
    ∀ q, s.rate.toNat ≤ q → memRead q t.lanes = memRead q s.lanes

/-- Every byte that SQUEEZE outputs is read at a position below the rate (R61, derived there). -/
def Obligations.SqueezeReadsBelowRate : Prop :=
  ∀ (s t : State) (b : Byte), s.Inv → exec .squeeze s = .next t → t.outByte = some b →
    ∃ q, q < t.rate.toNat ∧ t.pos.toNat = q + 1 ∧ memRead q t.lanes = some b

/-- Two states that meet the invariant and differ in the lanes only, and there only in the capacity region, show the
same on every port after a SQUEEZE that runs no permutation: the capacity is not learned. -/
def Obligations.SqueezeDoesNotLeakCapacity : Prop :=
  ∀ (s t t' : State) (a : Lanes), s.Inv → (∀ q, q < s.rate.toNat → memRead q a = memRead q s.lanes) →
    exec .squeeze s = .next t → exec .squeeze { s with lanes := a } = .next t' → t.perms = s.perms →
    portView t = portView t' ∧ t.outputs = t'.outputs

/-- The lanes show on no port but the output port, and there only under SQUEEZE: two states that differ in the lanes
only still differ only in the lanes, the output byte and the output record, and under another instruction in the lanes
only (R82). -/
def Obligations.LanesShowOnlyThroughSqueeze : Prop :=
  ∀ (i : Instr) (s t t' : State) (a : Lanes),
    exec i s = .next t → exec i { s with lanes := a } = .next t' →
    { t' with lanes := t.lanes, outByte := t.outByte, outputs := t.outputs } = t ∧
    (i ≠ .squeeze → t'.outByte = t.outByte ∧ t'.outputs = t.outputs)

/-- Whether the permutation runs does not depend on the message byte or on the lanes: two ABSORBs of different bytes into
states that differ in the lanes only agree in the number of permutations, the cursor and the phase (R202, derived
there). -/
def Obligations.AbsorbCountsDoNotDependOnData : Prop :=
  ∀ (s t t' : State) (a : Lanes) (b b' : Byte),
    exec (.absorb b) s = .next t → exec (.absorb b') { s with lanes := a } = .next t' →
    t.perms = t'.perms ∧ t.permPulse = t'.permPulse ∧ t.pos = t'.pos ∧ t.phase = t'.phase ∧ t.fault = t'.fault

/- Sequences of commands. -/

/-- Steps over a list of port words that encode instructions are those instructions one after another (R204). -/
def Obligations.StepsRunInstructionsInOrder : Prop :=
  ∀ (is : List Instr) (s : State), s.inputs = is.map (fun i => .word (encode i)) →
    Host.Core.run Sys2Proof.core is.length s = execAll is { s with inputs := [] }

/-- The chunk invariance of R150 and R151, said of the machine's registers and outputs.  However the bytes are divided into absorb calls, a fresh
context ends in the state that one call on all of them gives, and that state is the one the whole message defines.
However a length is divided into squeeze calls, a finalized context ends in the state that one call gives, and has output
that many bytes of its stream.  The first `m` bytes of a longer output are the `m`-byte output.  What
the states and the output are is derived in the spec: the cursor `n mod rate` (R135, derived there), the stream and its
`ceil(n / rate)` permutations (R142, derived there), the lanes of the absorbed message (R152, derived there). -/
def Obligations.AbsorbAndSqueezeAreChunkInvariant : Prop :=
  (∀ (s : State) (chunks : List (List Byte)), s.Inv → s.fault = .noFault → s.phase = .created →
    ∃ t, execCalls (chunks.map fun bytes => bytes.map .absorb) s = .next t ∧
      execAll (chunks.flatten.map .absorb) s = .next t ∧
      t.lanes = absorbed s.rate.toNat chunks.flatten s.lanes ∧ t.rate = s.rate ∧
      t.pos.toNat = chunks.flatten.length % s.rate.toNat ∧
      t.phase = (if chunks.flatten = [] then .created else .absorbing) ∧ t.fault = .noFault ∧ t.outputs = s.outputs) ∧
  (∀ (s : State) (lengths : List Nat), s.Inv → s.fault = .noFault → s.phase = .padded →
    ∃ t, execCalls (lengths.map fun n => List.replicate n .squeeze) s = .next t ∧
      execAll (List.replicate lengths.sum .squeeze) s = .next t ∧
      t.outputs = s.outputs ++ stream s.rate.toNat s.lanes lengths.sum ∧
      t.lanes = permuteTimes ((lengths.sum + s.rate.toNat - 1) / s.rate.toNat) s.lanes ∧ t.rate = s.rate ∧
      t.phase = (if lengths.sum = 0 then .padded else .squeezing) ∧ t.fault = .noFault) ∧
  (∀ (s : State) (m n : Nat), s.Inv → s.fault = .noFault → s.phase = .padded →
    ∃ t u, execAll (List.replicate m .squeeze) s = .next t ∧ execAll (List.replicate (m + n) .squeeze) s = .next u ∧
      t.outputs = s.outputs ++ (u.outputs.drop s.outputs.length).take m)

/-- After `n` ABSORB commands on a fresh context exactly `floor(n / rate)` permutations have run and the cursor is
`n mod rate` (R135, derived there). -/
def Obligations.AbsorbedBytesCountBlocks : Prop :=
  ∀ (s : State) (bytes : List Byte), s.Inv → s.fault = .noFault → s.phase = .created →
    ∃ t, execAll (bytes.map .absorb) s = .next t ∧ t.fault = .noFault ∧ t.rate = s.rate ∧
      t.perms = s.perms + bytes.length / s.rate.toNat ∧ t.pos.toNat = bytes.length % s.rate.toNat

/-- The output stream: after FINALIZE the `m`-th byte is byte `m mod rate` of the lanes permuted `1 + m div rate` times,
and `n` SQUEEZE commands run `ceil(n / rate)` permutations (R142, derived there). -/
def Obligations.SqueezeStreamsPermutedBlocks : Prop :=
  ∀ (s : State) (n : Nat), s.Inv → s.fault = .noFault → s.phase = .padded →
    ∃ t, execAll (List.replicate n .squeeze) s = .next t ∧ t.fault = .noFault ∧
      t.outputs = s.outputs ++ stream s.rate.toNat s.lanes n ∧
      t.perms = s.perms + (n + s.rate.toNat - 1) / s.rate.toNat ∧
      (1 ≤ n → t.pos.toNat = (n - 1) % s.rate.toNat + 1)

/-- The end-to-end function: from any state, INIT, the message, FINALIZE and `n` SQUEEZE commands output the first `n`
bytes of the sponge over the padded message (R152, derived there), and no fault occurs on the way (R193, derived there);
for `sec = 128` and `256` this is SHAKE128 and SHAKE256. -/
def Obligations.CommandsComputeShake : Prop :=
  ∀ (s : State) (sec : BitVec 10) (message : List Byte) (n : Nat), sec.toNat ≤ 799 →
    ∃ t, execAll (.init sec :: (message.map .absorb ++ .finalize :: List.replicate n .squeeze)) s = .next t ∧
      t.fault = .noFault ∧ t.everFaulted = s.everFaulted ∧ t.outputs = s.outputs ++ shake sec message n
end

