-- ==== Sys2Proof/Laws/State.lean ====
section
/-!
SUPPORT. One lemma per field per named update of the state, each true by unfolding that update once.
-/

namespace Sys2Proof.Machine

-- quiet
@[simp] theorem quiet_lanes (s : State) : (quiet s).lanes = s.lanes := rfl
@[simp] theorem quiet_rate (s : State) : (quiet s).rate = s.rate := rfl
@[simp] theorem quiet_pos (s : State) : (quiet s).pos = s.pos := rfl
@[simp] theorem quiet_phase (s : State) : (quiet s).phase = s.phase := rfl
@[simp] theorem quiet_fault (s : State) : (quiet s).fault = s.fault := rfl
@[simp] theorem quiet_fcmd (s : State) : (quiet s).fcmd = s.fcmd := rfl
@[simp] theorem quiet_outByte (s : State) : (quiet s).outByte = none := rfl
@[simp] theorem quiet_permPulse (s : State) : (quiet s).permPulse = false := rfl
@[simp] theorem quiet_inputs (s : State) : (quiet s).inputs = s.inputs := rfl
@[simp] theorem quiet_outputs (s : State) : (quiet s).outputs = s.outputs := rfl
@[simp] theorem quiet_perms (s : State) : (quiet s).perms = s.perms := rfl
@[simp] theorem quiet_everFaulted (s : State) : (quiet s).everFaulted = s.everFaulted := rfl
@[simp] theorem quiet_freeCount (s : State) : (quiet s).freeCount = s.freeCount := rfl

-- runPermutation
@[simp] theorem runPermutation_lanes (s : State) : (runPermutation s).lanes = permute s.lanes := rfl
@[simp] theorem runPermutation_rate (s : State) : (runPermutation s).rate = s.rate := rfl
@[simp] theorem runPermutation_pos (s : State) : (runPermutation s).pos = s.pos := rfl
@[simp] theorem runPermutation_phase (s : State) : (runPermutation s).phase = s.phase := rfl
@[simp] theorem runPermutation_fault (s : State) : (runPermutation s).fault = s.fault := rfl
@[simp] theorem runPermutation_fcmd (s : State) : (runPermutation s).fcmd = s.fcmd := rfl
@[simp] theorem runPermutation_outByte (s : State) : (runPermutation s).outByte = s.outByte := rfl
@[simp] theorem runPermutation_permPulse (s : State) : (runPermutation s).permPulse = true := rfl
@[simp] theorem runPermutation_inputs (s : State) : (runPermutation s).inputs = s.inputs := rfl
@[simp] theorem runPermutation_outputs (s : State) : (runPermutation s).outputs = s.outputs := rfl
@[simp] theorem runPermutation_perms (s : State) : (runPermutation s).perms = s.perms + 1 := rfl
@[simp] theorem runPermutation_everFaulted (s : State) : (runPermutation s).everFaulted = s.everFaulted := rfl
@[simp] theorem runPermutation_freeCount (s : State) : (runPermutation s).freeCount = s.freeCount := rfl

-- emit
@[simp] theorem emit_lanes (v : Byte) (s : State) : (emit v s).lanes = s.lanes := rfl
@[simp] theorem emit_rate (v : Byte) (s : State) : (emit v s).rate = s.rate := rfl
@[simp] theorem emit_pos (v : Byte) (s : State) : (emit v s).pos = s.pos := rfl
@[simp] theorem emit_phase (v : Byte) (s : State) : (emit v s).phase = s.phase := rfl
@[simp] theorem emit_fault (v : Byte) (s : State) : (emit v s).fault = s.fault := rfl
@[simp] theorem emit_fcmd (v : Byte) (s : State) : (emit v s).fcmd = s.fcmd := rfl
@[simp] theorem emit_outByte (v : Byte) (s : State) : (emit v s).outByte = some v := rfl
@[simp] theorem emit_permPulse (v : Byte) (s : State) : (emit v s).permPulse = s.permPulse := rfl
@[simp] theorem emit_inputs (v : Byte) (s : State) : (emit v s).inputs = s.inputs := rfl
@[simp] theorem emit_outputs (v : Byte) (s : State) : (emit v s).outputs = s.outputs ++ [v] := rfl
@[simp] theorem emit_perms (v : Byte) (s : State) : (emit v s).perms = s.perms := rfl
@[simp] theorem emit_everFaulted (v : Byte) (s : State) : (emit v s).everFaulted = s.everFaulted := rfl
@[simp] theorem emit_freeCount (v : Byte) (s : State) : (emit v s).freeCount = s.freeCount := rfl

-- clearFault
@[simp] theorem clearFault_lanes (s : State) : (clearFault s).lanes = s.lanes := rfl
@[simp] theorem clearFault_rate (s : State) : (clearFault s).rate = s.rate := rfl
@[simp] theorem clearFault_pos (s : State) : (clearFault s).pos = s.pos := rfl
@[simp] theorem clearFault_phase (s : State) : (clearFault s).phase = s.phase := rfl
@[simp] theorem clearFault_fault (s : State) : (clearFault s).fault = .noFault := rfl
@[simp] theorem clearFault_fcmd (s : State) : (clearFault s).fcmd = 0 := rfl
@[simp] theorem clearFault_outByte (s : State) : (clearFault s).outByte = s.outByte := rfl
@[simp] theorem clearFault_permPulse (s : State) : (clearFault s).permPulse = s.permPulse := rfl
@[simp] theorem clearFault_inputs (s : State) : (clearFault s).inputs = s.inputs := rfl
@[simp] theorem clearFault_outputs (s : State) : (clearFault s).outputs = s.outputs := rfl
@[simp] theorem clearFault_perms (s : State) : (clearFault s).perms = s.perms := rfl
@[simp] theorem clearFault_everFaulted (s : State) : (clearFault s).everFaulted = s.everFaulted := rfl
@[simp] theorem clearFault_freeCount (s : State) : (clearFault s).freeCount = s.freeCount := rfl

-- assertReset
@[simp] theorem assertReset_lanes (s : State) : (assertReset s).lanes = Config.freeLanes s.freeCount := rfl
@[simp] theorem assertReset_rate (s : State) : (assertReset s).rate = Config.freeRate s.freeCount := rfl
@[simp] theorem assertReset_pos (s : State) : (assertReset s).pos = Config.freePos s.freeCount := rfl
@[simp] theorem assertReset_phase (s : State) : (assertReset s).phase = .idle := rfl
@[simp] theorem assertReset_fault (s : State) : (assertReset s).fault = .noFault := rfl
@[simp] theorem assertReset_fcmd (s : State) : (assertReset s).fcmd = 0 := rfl
@[simp] theorem assertReset_outByte (s : State) : (assertReset s).outByte = none := rfl
@[simp] theorem assertReset_permPulse (s : State) : (assertReset s).permPulse = false := rfl
@[simp] theorem assertReset_inputs (s : State) : (assertReset s).inputs = s.inputs := rfl
@[simp] theorem assertReset_outputs (s : State) : (assertReset s).outputs = s.outputs := rfl
@[simp] theorem assertReset_perms (s : State) : (assertReset s).perms = s.perms := rfl
@[simp] theorem assertReset_everFaulted (s : State) : (assertReset s).everFaulted = s.everFaulted := rfl
@[simp] theorem assertReset_freeCount (s : State) : (assertReset s).freeCount = s.freeCount + 1 := rfl

-- placeWord
@[simp] theorem placeWord_lanes (p : PortWord) (s : State) : (placeWord p s).lanes = s.lanes := rfl
@[simp] theorem placeWord_rate (p : PortWord) (s : State) : (placeWord p s).rate = s.rate := rfl
@[simp] theorem placeWord_pos (p : PortWord) (s : State) : (placeWord p s).pos = s.pos := rfl
@[simp] theorem placeWord_phase (p : PortWord) (s : State) : (placeWord p s).phase = s.phase := rfl
@[simp] theorem placeWord_fault (p : PortWord) (s : State) : (placeWord p s).fault = s.fault := rfl
@[simp] theorem placeWord_fcmd (p : PortWord) (s : State) : (placeWord p s).fcmd = s.fcmd := rfl
@[simp] theorem placeWord_outByte (p : PortWord) (s : State) : (placeWord p s).outByte = s.outByte := rfl
@[simp] theorem placeWord_permPulse (p : PortWord) (s : State) : (placeWord p s).permPulse = s.permPulse := rfl
@[simp] theorem placeWord_inputs (p : PortWord) (s : State) : (placeWord p s).inputs = .word p :: s.inputs := rfl
@[simp] theorem placeWord_outputs (p : PortWord) (s : State) : (placeWord p s).outputs = s.outputs := rfl
@[simp] theorem placeWord_perms (p : PortWord) (s : State) : (placeWord p s).perms = s.perms := rfl
@[simp] theorem placeWord_everFaulted (p : PortWord) (s : State) : (placeWord p s).everFaulted = s.everFaulted := rfl
@[simp] theorem placeWord_freeCount (p : PortWord) (s : State) : (placeWord p s).freeCount = s.freeCount := rfl

-- raiseFault: the fields it never writes
@[simp] theorem raiseFault_lanes (c : FaultCause) (w : CmdWord) (s : State) :
    (raiseFault c w s).lanes = s.lanes := by
  unfold raiseFault; split <;> rfl
@[simp] theorem raiseFault_rate (c : FaultCause) (w : CmdWord) (s : State) :
    (raiseFault c w s).rate = s.rate := by
  unfold raiseFault; split <;> rfl
@[simp] theorem raiseFault_pos (c : FaultCause) (w : CmdWord) (s : State) :
    (raiseFault c w s).pos = s.pos := by
  unfold raiseFault; split <;> rfl
@[simp] theorem raiseFault_phase (c : FaultCause) (w : CmdWord) (s : State) :
    (raiseFault c w s).phase = s.phase := by
  unfold raiseFault; split <;> rfl
@[simp] theorem raiseFault_outByte (c : FaultCause) (w : CmdWord) (s : State) :
    (raiseFault c w s).outByte = s.outByte := by
  unfold raiseFault; split <;> rfl
@[simp] theorem raiseFault_permPulse (c : FaultCause) (w : CmdWord) (s : State) :
    (raiseFault c w s).permPulse = s.permPulse := by
  unfold raiseFault; split <;> rfl
@[simp] theorem raiseFault_inputs (c : FaultCause) (w : CmdWord) (s : State) :
    (raiseFault c w s).inputs = s.inputs := by
  unfold raiseFault; split <;> rfl
@[simp] theorem raiseFault_outputs (c : FaultCause) (w : CmdWord) (s : State) :
    (raiseFault c w s).outputs = s.outputs := by
  unfold raiseFault; split <;> rfl
@[simp] theorem raiseFault_perms (c : FaultCause) (w : CmdWord) (s : State) :
    (raiseFault c w s).perms = s.perms := by
  unfold raiseFault; split <;> rfl
@[simp] theorem raiseFault_freeCount (c : FaultCause) (w : CmdWord) (s : State) :
    (raiseFault c w s).freeCount = s.freeCount := by
  unfold raiseFault; split <;> rfl

-- permuteAtRate: the fields it never writes
@[simp] theorem permuteAtRate_rate (s : State) : (permuteAtRate s).rate = s.rate := by
  unfold permuteAtRate; split <;> rfl
@[simp] theorem permuteAtRate_phase (s : State) : (permuteAtRate s).phase = s.phase := by
  unfold permuteAtRate; split <;> rfl
@[simp] theorem permuteAtRate_fault (s : State) : (permuteAtRate s).fault = s.fault := by
  unfold permuteAtRate; split <;> rfl
@[simp] theorem permuteAtRate_fcmd (s : State) : (permuteAtRate s).fcmd = s.fcmd := by
  unfold permuteAtRate; split <;> rfl
@[simp] theorem permuteAtRate_outByte (s : State) : (permuteAtRate s).outByte = s.outByte := by
  unfold permuteAtRate; split <;> rfl
@[simp] theorem permuteAtRate_inputs (s : State) : (permuteAtRate s).inputs = s.inputs := by
  unfold permuteAtRate; split <;> rfl
@[simp] theorem permuteAtRate_outputs (s : State) : (permuteAtRate s).outputs = s.outputs := by
  unfold permuteAtRate; split <;> rfl
@[simp] theorem permuteAtRate_everFaulted (s : State) : (permuteAtRate s).everFaulted = s.everFaulted := by
  unfold permuteAtRate; split <;> rfl
@[simp] theorem permuteAtRate_freeCount (s : State) : (permuteAtRate s).freeCount = s.freeCount := by
  unfold permuteAtRate; split <;> rfl

end Sys2Proof.Machine
end

