-- ==== Sys2Proof/Laws/Ops.lean ====
section
/-!
SUPPORT. For each shared operation, what it can do, said once.
-/

namespace Sys2Proof.Machine

/-- The byte read answers at every position of the state byte space and nowhere else. -/
theorem memRead_isSome (p : Nat) (a : Lanes) : (memRead p a).isSome = decide (p < 200) := by
  unfold memRead; split <;> simp [*]

theorem memXor_isSome (p : Nat) (v : Byte) (a : Lanes) : (memXor p v a).isSome = decide (p < 200) := by
  unfold memXor; split <;> simp [*]

theorem memWrite_isSome (p : Nat) (v : Byte) (a : Lanes) : (memWrite p v a).isSome = decide (p < 200) := by
  unfold memWrite; split <;> simp [*]

/-- A byte XOR that goes on hands over the same state with only its lanes changed, by `memXor`. -/
theorem xorByteThen_next {p : Nat} {v : Byte} {s t : State} {k : State → Result} (h : xorByteThen p v s k = .next t) :
    ∃ a, memXor p v s.lanes = some a ∧ k { s with lanes := a } = .next t := by
  unfold xorByteThen at h
  split at h
  · exact ⟨_, ‹_›, h⟩
  · cases h

/-- Inside the state byte space a byte XOR goes on. -/
theorem xorByteThen_eq {p : Nat} {v : Byte} {s : State} {k : State → Result} {a : Lanes}
    (h : memXor p v s.lanes = some a) : xorByteThen p v s k = k { s with lanes := a } := by
  simp [xorByteThen, h]

/-- A byte read that goes on hands over the byte. -/
theorem readByteThen_next {p : Nat} {s t : State} {k : Byte → Result} (h : readByteThen p s k = .next t) :
    ∃ b, memRead p s.lanes = some b ∧ k b = .next t := by
  unfold readByteThen at h
  split at h
  · exact ⟨_, ‹_›, h⟩
  · cases h

/-- Inside the state byte space a byte read goes on. -/
theorem readByteThen_eq {p : Nat} {s : State} {k : Byte → Result} {b : Byte} (h : memRead p s.lanes = some b) :
    readByteThen p s k = k b := by
  simp [readByteThen, h]

/-- The trigger at the rate. -/
theorem permuteAtRate_of_eq {s : State} (h : s.pos = s.rate) : permuteAtRate s = { runPermutation s with pos := 0 } := by
  simp [permuteAtRate, atRate, h]

/-- The trigger below the rate. -/
theorem permuteAtRate_of_ne {s : State} (h : s.pos ≠ s.rate) : permuteAtRate s = s := by
  simp [permuteAtRate, atRate, h]

/-- The fault entry while no fault is recorded. -/
theorem raiseFault_of_noFault {c : FaultCause} {w : CmdWord} {s : State} (h : s.fault = .noFault) :
    raiseFault c w s = { s with fault := c, fcmd := w, everFaulted := true } := by
  simp [raiseFault, h]

/-- The first fault wins. -/
theorem raiseFault_of_fault {c : FaultCause} {w : CmdWord} {s : State} (h : s.fault ≠ .noFault) :
    raiseFault c w s = s := by
  simp [raiseFault, h]

/-- A command that is not a successful INIT is discarded while a fault is recorded. -/
theorem guarded_discards {w : CmdWord} {isInit : Bool} {cause : Option FaultCause} {s : State} {run : State → Result}
    (hf : s.fault ≠ .noFault) (hc : isInit = false ∨ cause ≠ none) : guarded w isInit cause s run = .next (quiet s) := by
  have h : s.fault ≠ .noFault ∧ ¬ (isInit = true ∧ cause = none) := ⟨hf, by rcases hc with h | h <;> simp [h]⟩
  simp only [guarded, if_pos h]

/-- A command with a cause raises it while no fault is recorded. -/
theorem guarded_raises {w : CmdWord} {isInit : Bool} {c : FaultCause} {s : State} {run : State → Result}
    (hf : s.fault = .noFault) :
    guarded w isInit (some c) s run = .next { quiet s with fault := c, fcmd := w, everFaulted := true } := by
  simp [guarded, hf, raiseFault]

/-- A command without a cause runs while no fault is recorded. -/
theorem guarded_runs {w : CmdWord} {isInit : Bool} {s : State} {run : State → Result} (hf : s.fault = .noFault) :
    guarded w isInit none s run = run (quiet s) := by
  simp [guarded, hf]

/-- A successful INIT runs whatever fault is recorded. -/
theorem guarded_runs_init {w : CmdWord} {s : State} {run : State → Result} :
    guarded w true none s run = run (quiet s) := by
  simp [guarded]

/-- Everything the check order can do with a command that answers a next state. -/
theorem guarded_next {w : CmdWord} {isInit : Bool} {cause : Option FaultCause} {s t : State} {run : State → Result}
    (h : guarded w isInit cause s run = .next t) :
    (s.fault ≠ .noFault ∧ (isInit = false ∨ cause ≠ none) ∧ t = quiet s) ∨
    (∃ c, cause = some c ∧ s.fault = .noFault ∧
      t = { quiet s with fault := c, fcmd := w, everFaulted := true }) ∨
    (cause = none ∧ (s.fault = .noFault ∨ isInit = true) ∧ run (quiet s) = .next t) := by
  by_cases hf : s.fault = .noFault
  · cases cause with
    | none => exact .inr (.inr ⟨rfl, .inl hf, by rwa [guarded_runs hf] at h⟩)
    | some c => exact .inr (.inl ⟨c, rfl, hf, by rw [guarded_raises hf] at h; cases h; rfl⟩)
  · by_cases hc : isInit = true ∧ cause = none
    · obtain ⟨rfl, rfl⟩ := hc
      exact .inr (.inr ⟨rfl, .inr rfl, by rwa [guarded_runs_init] at h⟩)
    · have hd : isInit = false ∨ cause ≠ none := by
        cases isInit <;> simp_all
      rw [guarded_discards hf hd] at h
      cases h
      exact .inl ⟨hf, hd, rfl⟩

end Sys2Proof.Machine
end

