-- ==== Sys2Proof/Laws/Exec.lean ====
section
/-!
SUPPORT. For each meaning, and for the step, everything it can do when it answers a next state: discarded, a fault
raised, or executed.
-/

namespace Sys2Proof.Machine

@[simp] theorem exec_init (sec : BitVec 10) (s : State) : exec (.init sec) s = execInit sec s := rfl
@[simp] theorem exec_absorb (b : Byte) (s : State) : exec (.absorb b) s = execAbsorb b s := rfl
@[simp] theorem exec_finalize (s : State) : exec .finalize s = execFinalize s := rfl
@[simp] theorem exec_squeeze (s : State) : exec .squeeze s = execSqueeze s := rfl
@[simp] theorem exec_permute (s : State) : exec .permute s = execPermute s := rfl

/-- The state after INIT `sec` executed. -/
def afterInit (sec : BitVec 10) (s : State) : State :=
  clearFault { quiet s with lanes := zeroLanes, rate := rateOfSec sec, pos := 0, phase := .created }

/-- The state after ABSORB executed, `a` being the lanes with the byte XORed in. -/
def afterAbsorb (a : Lanes) (s : State) : State :=
  { permuteAtRate { quiet s with lanes := a, pos := s.pos + 1 } with phase := .absorbing }

/-- The state after FINALIZE executed, `a` being the lanes with both bytes XORed in. -/
def afterFinalize (a : Lanes) (s : State) : State :=
  { quiet s with lanes := a, pos := s.rate, phase := .padded }

/-- The state after SQUEEZE executed, `b` being the byte output. -/
def afterSqueeze (b : Byte) (s : State) : State :=
  { emit b (permuteAtRate (quiet s)) with pos := (permuteAtRate (quiet s)).pos + 1, phase := .squeezing }

theorem execInit_next {sec : BitVec 10} {s t : State} (h : execInit sec s = .next t) :
    (s.fault ≠ .noFault ∧ initCause sec ≠ none ∧ t = discarded s) ∨
    (∃ c, initCause sec = some c ∧ s.fault = .noFault ∧ t = raised c (initWord sec) s) ∨
    (initCause sec = none ∧ t = afterInit sec s) := by
  rcases guarded_next h with ⟨hf, hc, rfl⟩ | ⟨c, hc, hf, rfl⟩ | ⟨hc, -, hr⟩
  · exact .inl ⟨hf, by simpa using hc, rfl⟩
  · exact .inr (.inl ⟨c, hc, hf, rfl⟩)
  · cases hr
    exact .inr (.inr ⟨hc, rfl⟩)

theorem execAbsorb_next {b : Byte} {s t : State} (h : execAbsorb b s = .next t) :
    (s.fault ≠ .noFault ∧ t = discarded s) ∨
    (∃ c, absorbCause s.phase = some c ∧ s.fault = .noFault ∧ t = raised c (absorbWord b) s) ∨
    (absorbCause s.phase = none ∧ s.fault = .noFault ∧
      ∃ a, memXor (cursorPosition s) b s.lanes = some a ∧ t = afterAbsorb a s) := by
  rcases guarded_next h with ⟨hf, -, rfl⟩ | ⟨c, hc, hf, rfl⟩ | ⟨hc, hf, hr⟩
  · exact .inl ⟨hf, rfl⟩
  · exact .inr (.inl ⟨c, hc, hf, rfl⟩)
  · obtain ⟨a, ha, hr⟩ := xorByteThen_next hr
    cases hr
    exact .inr (.inr ⟨hc, by simpa using hf, a, ha, rfl⟩)

theorem execFinalize_next {s t : State} (h : execFinalize s = .next t) :
    (s.fault ≠ .noFault ∧ t = discarded s) ∨
    (∃ c, finalizeCause s.phase = some c ∧ s.fault = .noFault ∧ t = raised c finalizeWord s) ∨
    (finalizeCause s.phase = none ∧ s.fault = .noFault ∧
      ∃ a a', memXor (cursorPosition s) padFirst s.lanes = some a ∧ memXor (lastRatePosition s) padLast a = some a' ∧
        t = afterFinalize a' s) := by
  rcases guarded_next h with ⟨hf, -, rfl⟩ | ⟨c, hc, hf, rfl⟩ | ⟨hc, hf, hr⟩
  · exact .inl ⟨hf, rfl⟩
  · exact .inr (.inl ⟨c, hc, hf, rfl⟩)
  · obtain ⟨a, ha, hr⟩ := xorByteThen_next hr
    obtain ⟨a', ha', hr⟩ := xorByteThen_next hr
    cases hr
    exact .inr (.inr ⟨hc, by simpa using hf, a, a', ha, ha', rfl⟩)

theorem execSqueeze_next {s t : State} (h : execSqueeze s = .next t) :
    (s.fault ≠ .noFault ∧ t = discarded s) ∨
    (∃ c, squeezeCause s.phase = some c ∧ s.fault = .noFault ∧ t = raised c squeezeWord s) ∨
    (squeezeCause s.phase = none ∧ s.fault = .noFault ∧
      ∃ b, memRead (permuteAtRate (quiet s)).pos.toNat (permuteAtRate (quiet s)).lanes = some b ∧
        t = afterSqueeze b s) := by
  rcases guarded_next h with ⟨hf, -, rfl⟩ | ⟨c, hc, hf, rfl⟩ | ⟨hc, hf, hr⟩
  · exact .inl ⟨hf, rfl⟩
  · exact .inr (.inl ⟨c, hc, hf, rfl⟩)
  · obtain ⟨b, hb, hr⟩ := readByteThen_next hr
    cases hr
    exact .inr (.inr ⟨hc, by simpa using hf, b, hb, rfl⟩)

theorem execPermute_next {s t : State} (h : execPermute s = .next t) : t = runPermutation (quiet s) := by
  cases h; rfl

/-- What ABSORB leaves, by whether its byte fills the block. -/
theorem afterAbsorb_eq (a : Lanes) (s : State) : afterAbsorb a s =
    if s.pos + 1 = s.rate then
      { s with lanes := permute a, pos := 0, phase := .absorbing, perms := s.perms + 1, permPulse := true,
               outByte := none }
    else { s with lanes := a, pos := s.pos + 1, phase := .absorbing, permPulse := false, outByte := none } := by
  unfold afterAbsorb
  split <;> rename_i h
  · rw [permuteAtRate_of_eq (by exact h)]; rfl
  · rw [permuteAtRate_of_ne (by exact h)]; rfl

/-- What SQUEEZE leaves, by whether the cursor was at the rate. -/
theorem afterSqueeze_eq (b : Byte) (s : State) : afterSqueeze b s =
    if s.pos = s.rate then
      { s with lanes := permute s.lanes, pos := 1, phase := .squeezing, perms := s.perms + 1, permPulse := true,
               outByte := some b, outputs := s.outputs ++ [b] }
    else
      { s with pos := s.pos + 1, phase := .squeezing, permPulse := false, outByte := some b,
               outputs := s.outputs ++ [b] } := by
  unfold afterSqueeze
  split <;> rename_i h
  · rw [permuteAtRate_of_eq (by exact h)]; rfl
  · rw [permuteAtRate_of_ne (by exact h)]; rfl

/-- The phase table gives INIT its fault by the parameter alone. -/
theorem tableCause_init (p : Phase) (sec : BitVec 10) : tableCause p (.init sec) = initCause sec := by
  cases p <;> simp only [tableCause, initCause] <;> congr 1 <;> simp only [eq_iff_iff] <;> omega

theorem tableCause_absorb (p : Phase) (b : Byte) : tableCause p (.absorb b) = absorbCause p := by cases p <;> rfl

theorem tableCause_finalize (p : Phase) : tableCause p .finalize = finalizeCause p := by cases p <;> rfl

theorem tableCause_squeeze (p : Phase) : tableCause p .squeeze = squeezeCause p := by cases p <;> rfl

/-- What an instruction has done when it answers a next state. -/
inductive Ran (s : State) : Instr → State → Prop where
  | discard {i : Instr} (hf : s.fault ≠ .noFault) (hp : onCommandPort i = true) (hg : goodInit i = false) :
    Ran s i (discarded s)
  | raise {i : Instr} {c : FaultCause} (hf : s.fault = .noFault) (hp : onCommandPort i = true)
    (hc : tableCause s.phase i = some c) : Ran s i (raised c (commandWord i) s)
  | init {sec : BitVec 10} (h : sec.toNat ≤ 799) : Ran s (.init sec) (afterInit sec s)
  | absorb {b : Byte} {a : Lanes} (hf : s.fault = .noFault) (hp : s.phase = .created ∨ s.phase = .absorbing)
    (ha : memXor (cursorPosition s) b s.lanes = some a) : Ran s (.absorb b) (afterAbsorb a s)
  | finalize {a a' : Lanes} (hf : s.fault = .noFault) (hp : s.phase = .created ∨ s.phase = .absorbing)
    (ha : memXor (cursorPosition s) padFirst s.lanes = some a)
    (ha' : memXor (lastRatePosition s) padLast a = some a') : Ran s .finalize (afterFinalize a' s)
  | squeeze {b : Byte} (hf : s.fault = .noFault) (hp : s.phase = .padded ∨ s.phase = .squeezing)
    (hb : memRead (permuteAtRate (quiet s)).pos.toNat (permuteAtRate (quiet s)).lanes = some b) :
    Ran s .squeeze (afterSqueeze b s)
  | permute : Ran s .permute (runPermutation (quiet s))

/-- Every instruction that answers a next state has done one of these. -/
theorem exec_next {i : Instr} {s t : State} (h : exec i s = .next t) : Ran s i t := by
  cases i with
  | init sec =>
    rcases execInit_next h with ⟨hf, hc, rfl⟩ | ⟨c, hc, hf, rfl⟩ | ⟨hc, rfl⟩
    · refine .discard hf rfl ?_
      simp only [initCause] at hc
      simp only [goodInit, decide_eq_false_iff_not]
      split at hc <;> simp_all
      omega
    · exact .raise hf rfl (by rw [tableCause_init, hc])
    · refine .init ?_
      simp only [initCause] at hc
      split at hc <;> simp_all
      omega
  | absorb b =>
    rcases execAbsorb_next h with ⟨hf, rfl⟩ | ⟨c, hc, hf, rfl⟩ | ⟨hc, hf, a, ha, rfl⟩
    · exact .discard hf rfl rfl
    · exact .raise hf rfl (by rw [tableCause_absorb, hc])
    · exact .absorb hf (by cases hp : s.phase <;> simp_all [absorbCause]) ha
  | finalize =>
    rcases execFinalize_next h with ⟨hf, rfl⟩ | ⟨c, hc, hf, rfl⟩ | ⟨hc, hf, a, a', ha, ha', rfl⟩
    · exact .discard hf rfl rfl
    · exact .raise hf rfl (by rw [tableCause_finalize, hc])
    · exact .finalize hf (by cases hp : s.phase <;> simp_all [finalizeCause]) ha ha'
  | squeeze =>
    rcases execSqueeze_next h with ⟨hf, rfl⟩ | ⟨c, hc, hf, rfl⟩ | ⟨hc, hf, b, hb, rfl⟩
    · exact .discard hf rfl rfl
    · exact .raise hf rfl (by rw [tableCause_squeeze, hc])
    · exact .squeeze hf (by cases hp : s.phase <;> simp_all [squeezeCause]) hb
  | permute =>
    rw [execPermute_next h]
    exact .permute

/-- An ILLEGAL word that answers a next state is discarded or raises ILLEGAL_COMMAND. -/
theorem illegalCommand_next {w : CmdWord} {s t : State} (h : illegalCommand w s = .next t) :
    (s.fault ≠ .noFault ∧ t = discarded s) ∨ (s.fault = .noFault ∧ t = raised .illegalCommand w s) := by
  rcases guarded_next h with ⟨hf, -, rfl⟩ | ⟨c, hc, hf, rfl⟩ | ⟨hc, -, -⟩
  · exact .inl ⟨hf, rfl⟩
  · cases hc
    exact .inr ⟨hf, rfl⟩
  · cases hc

/-- Fetching takes the host's next input, if there is one, and changes nothing else. -/
theorem fetch_state (s : State) : (fetch s).2 = { s with inputs := s.inputs.tail } := by
  unfold fetch
  split <;> rename_i h
  · simp only [h, List.tail_nil]; rw [← h]
  · simp [h]

/-- What a step can do, by what it fetches. -/
theorem step_next {s t : State} (h : step s = .next t) :
    ∃ u, u = { s with inputs := s.inputs.tail } ∧
      (((fetch s).1 = .nothing ∧ t = discarded u) ∨
       ((fetch s).1 = .resetAsserted ∧ t = assertReset u) ∨
       (∃ w, (fetch s).1 = .illegal w ∧ illegalCommand w u = .next t) ∨
       (∃ i, (fetch s).1 = .instr i ∧ exec i u = .next t)) := by
  refine ⟨_, rfl, ?_⟩
  rw [← fetch_state s]
  unfold step at h
  split at h <;> rename_i hf <;> rw [hf]
  · cases h
    exact .inl ⟨rfl, rfl⟩
  · cases h
    exact .inr (.inl ⟨rfl, rfl⟩)
  · exact .inr (.inr (.inl ⟨_, rfl, h⟩))
  · exact .inr (.inr (.inr ⟨_, rfl, h⟩))

/-- Two lists of instructions one after the other. -/
theorem execAll_append (is js : List Instr) (s : State) : execAll (is ++ js) s =
    match execAll is s with
    | .next t => execAll js t
    | .fault r => .fault r
    | .refused r => .refused r := by
  induction is generalizing s with
  | nil => rfl
  | cons i is ih =>
    simp only [List.cons_append, execAll]
    cases exec i s <;> simp [ih]

/-- Calls run as the instructions of all of them, one after another. -/
theorem execCalls_eq (calls : List (List Instr)) (s : State) : execCalls calls s = execAll calls.flatten s := by
  induction calls generalizing s with
  | nil => rfl
  | cons call calls ih =>
    simp only [execCalls, List.flatten_cons, execAll_append]
    cases execAll call s <;> simp [ih]

end Sys2Proof.Machine
end

