-- ==== Sys2Proof/Laws/PerInstr.lean ====
section
/-!
SUPPORT. Statements about every instruction as syntax, one lemma per constructor.
-/

namespace Sys2Proof.Laws

/-- The encoded word is well formed on its port: a row of the opcode map selects a command's word, and the engine
port's word is 1 (spec/30_encoding.md R86). -/
def EncodedWord.Statement (i : Instr) : Prop :=
  match encode i with
  | .command w => Machine.onCommandPort i = true ∧ commandWf w = true
  | .engine req => Machine.onCommandPort i = false ∧ req = 1

theorem EncodedWord.init (sec : BitVec 10) : EncodedWord.Statement (.init sec) :=
  ⟨rfl, by revert sec; decide +kernel⟩

theorem EncodedWord.absorb (byte : Byte) : EncodedWord.Statement (.absorb byte) :=
  ⟨rfl, by revert byte; decide +kernel⟩

theorem EncodedWord.finalize : EncodedWord.Statement .finalize := ⟨rfl, by decide⟩

theorem EncodedWord.squeeze : EncodedWord.Statement .squeeze := ⟨rfl, by decide⟩

theorem EncodedWord.permute : EncodedWord.Statement .permute := ⟨rfl, rfl⟩

end Sys2Proof.Laws
end

