-- ==== Sys2Proof/Laws/Tables.lean ====
section
/-!
SUPPORT. The printed tables of the engine agree with one another and with the rules that generate them
(spec/40_permutation.md R109 to R112, R117).
-/

namespace Sys2Proof.Machine

/-- `PISRC[PIDST[i]] = i` (R111). -/
theorem piSrc_piDst (i : Fin 25) : piSrc[piDst[i]] = i := by revert i; decide +kernel

/-- `PIDST[PISRC[j]] = j`, the other direction. -/
theorem piDst_piSrc (j : Fin 25) : piDst[piSrc[j]] = j := by revert j; decide +kernel

/-- `PIDST[i] = y + 5 * ((2*x + 3*y) mod 5)` (R110). -/
theorem piDst_eq (i : Fin 25) : (piDst[i]).val = (row i).val + 5 * (2 * column i + 3 * row i : Fin 5).val := by
  revert i; decide +kernel

/-- The rotation offset at the `t`-th place of the walk (R109). -/
theorem rhoTable_walkPlace (t : Fin 24) :
    rhoTable[(walkPlace t).1.val + 5 * (walkPlace t).2.val] = (t.val + 1) * (t.val + 2) / 2 % 64 := by
  revert t; decide +kernel

/-- The walk visits every place but `(0, 0)` (R109). -/
theorem walkPlace_covers (x y : Fin 5) (h : (x, y) ≠ (0, 0)) : ∃ t : Fin 24, walkPlace t = (x, y) := by
  revert x y; decide +kernel

/-- Every rotation amount fits the barrel (R103, R108). -/
theorem rhoTable_lt (i : Fin 25) : rhoTable[i] < 64 := by revert i; decide +kernel

/-- The fused walk's destinations and amounts are those of the stage tables (R112). -/
theorem walkTable_chain (k : Fin 23) :
    walkTable[k.val + 1]! = (rhoTable[(walkTable[k.val]!).2], piDst[(walkTable[k.val]!).2]) := by
  revert k; decide +kernel

/-- The round constants are those the register generates (R116, R117). -/
theorem roundConstant_generated (ir : Fin 24) : roundConstant ir = generatedRc ir := by revert ir; decide +kernel

end Sys2Proof.Machine
end

