-- ==== Sys2Proof/Tests/Slice0.lean ====
section
/-!
SUPPORT. The model's own tests, with expected values from spec/95_test_vectors.md, and for every statement with
hypotheses a concrete state and operands that meet them.
-/

-- Elaborate one theorem at a time: many kernel evaluations side by side would reserve too much memory.
set_option Elab.async false

namespace Sys2Proof.Tests

open Sys2Proof.Machine

/-- The result is a next state with the property. -/
def nextHas (r : Result) (p : State → Bool) : Bool :=
  match r with
  | .next t => p t
  | .fault _ => false
  | .refused _ => false

theorem exists_of_nextHas {r : Result} {p : State → Bool} (h : nextHas r p = true) : ∃ t, r = .next t ∧ p t = true := by
  cases r with
  | next t => exact ⟨t, rfl, h⟩
  | fault r => cases h
  | refused r => cases h

/-- A state in a phase, with a rate, a cursor and lane 0 given, and no fault. -/
def ctx (ph : Phase) (rate pos : Byte) (lane0 : Lane) : State :=
  { State.reset with phase := ph, rate := rate, pos := pos, lanes := zeroLanes.set 0 lane0 }

/-- The state with a fault recorded: ABSORB 0x62 came after FINALIZE (V52). -/
def faulted (s : State) : State := { s with fault := .absorbAfterFinalize, fcmd := 0x2062, everFaulted := true }

/-- The state with a command word as the next input. -/
def issuing (w : CmdWord) (s : State) : State := placeWord (.command w) s

/- Well-formedness: a word and a line that each check refuses, and one it takes. -/

theorem test_wf_init_word : commandWf 0x13FF = true ∧ commandWf 0x1400 = false := by decide
theorem test_wf_absorb_word : commandWf 0x20FF = true ∧ commandWf 0x2100 = false := by decide
theorem test_wf_finalize_word : commandWf 0x3000 = true ∧ commandWf 0x3001 = false := by decide
theorem test_wf_squeeze_word : commandWf 0x4000 = true ∧ commandWf 0x4001 = false := by decide
theorem test_wf_no_row : commandWf 0x0000 = false ∧ commandWf 0x5000 = false ∧ commandWf 0xFFFF = false := by decide
theorem test_wf_line_init : (AsmLine.init 1023).wf = true ∧ (AsmLine.init 1024).wf = false := by decide
theorem test_wf_line_absorb : (AsmLine.absorb 255).wf = true ∧ (AsmLine.absorb 256).wf = false := by decide
theorem test_wf_line_absorbN : (AsmLine.absorbN [0, 255]).wf = true ∧ (AsmLine.absorbN [0, 256]).wf = false := by decide
theorem test_wf_line_absorbS : (AsmLine.absorbS ['a']).wf = true ∧ (AsmLine.absorbS [Char.ofNat 233]).wf = false := by
  decide
theorem test_wf_line_shake : (AsmLine.shake128 [Char.ofNat 233] 1).wf = false ∧
    (AsmLine.shake256 [Char.ofNat 233] 1).wf = false := by decide

/- Decoding: words written out bit by bit from R81. -/

theorem test_decode_init : decodeCommand 0b0001000010000000 = .instr (.init 128) := by decide
theorem test_decode_init_max : decodeCommand 0b0001001111111111 = .instr (.init 1023) := by decide
theorem test_decode_absorb : decodeCommand 0b0010000001100001 = .instr (.absorb 0x61) := by decide
theorem test_decode_finalize : decodeCommand 0b0011000000000000 = .instr .finalize := by decide
theorem test_decode_squeeze : decodeCommand 0b0100000000000000 = .instr .squeeze := by decide
theorem test_decode_permute : decodeEngine 0b1 = .instr .permute ∧ decodeEngine 0b0 = .rejected .noRequest := by decide
theorem test_decode_illegal_bits :
    decodeCommand 0x1880 = .rejected .reservedBitSet ∧ decodeCommand 0x2861 = .rejected .reservedBitSet ∧
    decodeCommand 0x3001 = .rejected .reservedBitSet ∧ decodeCommand 0x4020 = .rejected .reservedBitSet := by decide
theorem test_decode_illegal_opcode :
    decodeCommand 0x0FFF = .rejected .illegalOpcode ∧ decodeCommand 0x8000 = .rejected .illegalOpcode := by decide
theorem test_decode_table_word :
    decodeTableWord 16 0x1080 = some (.init 128) ∧ decodeTableWord 1 1 = some .permute ∧
    decodeTableWord 8 1 = some .permute ∧ decodeTableWord 16 0x5000 = none := by decide
theorem test_encode : encode (.init 256) = .command 0x1100 ∧ encode (.absorb 0x74) = .command 0x2074 := by decide

/- The assembler: section 2.1 of the vectors. -/

theorem test_assemble_absorbS : assembleLine (.absorbS ['a', 'b', 'c']) =
    some [.command 0x2061, .command 0x2062, .command 0x2063] := by decide
theorem test_read_line : readLine ['A', 'B', 'S', 'O', 'R', 'B', ' ', '0', 'x', '7', '4', ' ', ';', 'x'] =
    some (some (.absorb 0x74)) := by decide

/- The engine: V6, V10, V11, V13, V14, V15, V16, V19, V20, and the table of R116. -/

theorem test_rol64 : rol64 0x0123456789ABCDEF 4 = 0x123456789ABCDEF0 ∧ rol64 0x8000000000000001 62 = 0x6000000000000000 ∧
    rol64 0x0123456789ABCDEF 0 = 0x0123456789ABCDEF := by decide

theorem test_theta : theta (zeroLanes.set 0 0x8000000000000000) =
    #v[0x8000000000000000, 0x8000000000000000, 0, 0, 1, 0, 0x8000000000000000, 0, 0, 1,
       0, 0x8000000000000000, 0, 0, 1, 0, 0x8000000000000000, 0, 0, 1, 0, 0x8000000000000000, 0, 0, 1] := by
  decide +kernel

theorem test_rho : rho (Vector.replicate 25 0x8000000000000001) =
    #v[0x8000000000000001, 0x0000000000000003, 0x6000000000000000, 0x0000000018000000, 0x000000000C000000,
       0x0000001800000000, 0x0000180000000000, 0x0000000000000060, 0x00C0000000000000, 0x0000000000180000,
       0x000000000000000C, 0x0000000000000600, 0x00000C0000000000, 0x0000000003000000, 0x000000C000000000,
       0x0000030000000000, 0x0000300000000000, 0x000000000000C000, 0x0000000000300000, 0x0000000000000180,
       0x0000000000060000, 0x0000000000000006, 0x3000000000000000, 0x0180000000000000, 0x0000000000006000] := by
  decide +kernel

theorem test_pi : pi (Vector.ofFn fun i : Fin 25 => BitVec.ofNat 64 i.val) =
    #v[0, 6, 12, 18, 24, 3, 9, 10, 16, 22, 1, 7, 13, 19, 20, 4, 5, 11, 17, 23, 2, 8, 14, 15, 21] := by decide +kernel

theorem test_chi : chi #v[1, 2, 3, 4, 5,
      0xFFFFFFFFFFFFFFFF, 0, 0xFFFFFFFFFFFFFFFF, 0, 0xFFFFFFFFFFFFFFFF,
      0xF0F0F0F0F0F0F0F0, 0xFF00FF00FF00FF00, 0xFFFF0000FFFF0000, 0, 0,
      0, 0, 0, 0, 0, 0, 0, 0, 0, 0] =
    #v[0, 6, 2, 4, 7,
      0, 0, 0, 0, 0xFFFFFFFFFFFFFFFF,
      0xF00FF0F0F00FF0F0, 0xFF00FF00FF00FF00, 0xFFFF0000FFFF0000, 0xF0F0F0F0F0F0F0F0, 0x0F000F000F000F00,
      0, 0, 0, 0, 0, 0, 0, 0, 0, 0] := by decide +kernel

theorem test_round_constants :
    roundConstant 0 = 0x0000000000000001 ∧ roundConstant 1 = 0x0000000000008082 ∧
    roundConstant 2 = 0x800000000000808A ∧ roundConstant 3 = 0x8000000080008000 ∧
    roundConstant 4 = 0x000000000000808B ∧ roundConstant 5 = 0x0000000080000001 ∧
    roundConstant 6 = 0x8000000080008081 ∧ roundConstant 7 = 0x8000000000008009 ∧
    roundConstant 8 = 0x000000000000008A ∧ roundConstant 9 = 0x0000000000000088 ∧
    roundConstant 10 = 0x0000000080008009 ∧ roundConstant 11 = 0x000000008000000A ∧
    roundConstant 12 = 0x000000008000808B ∧ roundConstant 13 = 0x800000000000008B ∧
    roundConstant 14 = 0x8000000000008089 ∧ roundConstant 15 = 0x8000000000008003 ∧
    roundConstant 16 = 0x8000000000008002 ∧ roundConstant 17 = 0x8000000000000080 ∧
    roundConstant 18 = 0x000000000000800A ∧ roundConstant 19 = 0x800000008000000A ∧
    roundConstant 20 = 0x8000000080008081 ∧ roundConstant 21 = 0x8000000000008080 ∧
    roundConstant 22 = 0x0000000080000001 ∧ roundConstant 23 = 0x8000000080008008 := by
  decide +kernel

theorem test_iota : (iota 23 (zeroLanes.set 0 0xFFFFFFFFFFFFFFFF))[0] = 0x7FFFFFFF7FFF7FF7 := by decide +kernel

theorem test_round : roundStep (zeroLanes.set 0 1) 1 =
    #v[0x0000000000008083, 0x0000100000000000, 0x0000000000008000, 0x0000000000000001, 0x0000100000008000,
       0x0000000000000000, 0x0000200000200000, 0x0000000000000000, 0x0000200000000000, 0x0000000000200000,
       0x0000000000000002, 0x0000000000000200, 0x0000000000000000, 0x0000000000000202, 0x0000000000000000,
       0x0000000010000400, 0x0000000000000000, 0x0000000000000400, 0x0000000010000000, 0x0000000000000000,
       0x0000010000000000, 0x0000000000000000, 0x0000010000000004, 0x0000000000000000, 0x0000000000000004] := by
  decide +kernel

/-- Rounds `lo` to `lo + 5` on a state. -/
def sixRounds (lo : Nat) (a : Lanes) : Lanes := (((List.finRange 24).drop lo).take 6).foldl roundStep a

/- Three states between the zero state and V20; only that the last six rounds give V20 tells that they are right. -/
def afterRound5 : Lanes :=
  #v[0x43E30B96FF110A58, 0xD642C7DF22B4173C, 0xBFD660DFE2E0051D, 0xA303B734F55677E6, 0x37C05E405B01AF0C,
     0x0B5033314F45C5CB, 0x44F0FBF5606F647A, 0x34FE5A6214181ED1, 0xB42ABC5DE738DDD5, 0x7A8E099FE258E5D8,
     0x2D6CBEB27C4BC219, 0xA58159B967A3AD93, 0xA4036D7EAF457157, 0x5F252E8E367F3DC8, 0x5E8F6AD5D330526E,
     0x4FCB128386812F6E, 0x02C154103BD90DD0, 0x375463E874AF271C, 0x1CEE752EDB4B48F6, 0x36E67B423707DCB0,
     0xF36BA8B04378F57A, 0xCFCD9CECD3ADE3D5, 0x7FC73C7B61494B4C, 0xB913D9D348A8E89A, 0x1EDCA3008E4023A2]
def afterRound11 : Lanes :=
  #v[0x4089B1D2EF5D3A26, 0x8409F6C9BE239ECB, 0x12657D5A4568EAD5, 0x4D9F3E32387E66D3, 0x3BE7F6680BB1C847,
     0x61ED7FB0CE6CA6AF, 0x3671348A3FBD6487, 0x81E9F633F01DCF03, 0xAB5EEFA38E5546D9, 0x8298D4E430062494,
     0x3229E84A8E1704C2, 0x56F221867A1B3140, 0xDB7043CF08757BB2, 0x52DE6DE69935B888, 0x98A1C2D38194EDA1,
     0x9AF85D4549FB53C7, 0x667E09DE6B59E740, 0xC08877B3D1A7A9F3, 0x5DA108D19209739F, 0xE0E096FFE4FF71EA,
     0x77BADAFBFD43D602, 0x50A13329B93C785F, 0xF8AE145ADFFBE076, 0x366D5164BB8F0BB5, 0x438298AA08F16A54]
def afterRound17 : Lanes :=
  #v[0xFBDF32A8511A215A, 0x077CC8C29C4070D1, 0xA1D7456DD43B2098, 0x628B689B07200E95, 0x67A8FA7CCAFB6FCC,
     0x4BC8B925DB11FC4E, 0x795330566EFD965C, 0x12E5367BA3EC4777, 0x6256066085A1C509, 0x9A956CBBB31FA973,
     0x91282D2C07D3C3EA, 0x55C1963AD365F063, 0x471AB241A976B335, 0x8099B9E1F6F6E869, 0x321A2CFBB72874A4,
     0xF35ACBBFB66C85CA, 0x56B6B30B89E00255, 0x84B0356A433BF9A8, 0x853D1F0E8D821215, 0x508C1B026DAFDC95,
     0x7345AE61EB7C80A2, 0x87CCC9784DD9D4BF, 0x3A624359F6A8B2B5, 0x6DA5463417CE143F, 0xC801EFF982630994]

/-- What PERMUTE makes of the zero state, row by row: V20. -/
def zeroPermuted : Lanes :=
  (#v[#v[0xF1258F7940E1DDE7, 0x84D5CCF933C0478A, 0xD598261EA65AA9EE, 0xBD1547306F80494D, 0x8B284E056253D057],
     #v[0xFF97A42D7F8E6FD4, 0x90FEE5A0A44647C4, 0x8C5BDA0CD6192E76, 0xAD30A6F71B19059C, 0x30935AB7D08FFC64],
     #v[0xEB5AA93F2317D635, 0xA9A6E6260D712103, 0x81A57C16DBCF555F, 0x43B831CD0347C826, 0x01F22F1A11A5569F],
     #v[0x05E5635A21D9AE61, 0x64BEFEF28CC970F2, 0x613670957BC46611, 0xB87C5A554FD00ECB, 0x8C3EE88A1CCF32C8],
     #v[0x940C7922AE3A2614, 0x1841F924A2C509E4, 0x16F53526E70465C2, 0x75F644E97F30A13B, 0xEAF1FF7B5CECA249]] : Vector (Vector Lane 5) 5).flatten

theorem sixRounds_0 : sixRounds 0 zeroLanes = afterRound5 := by decide +kernel
theorem sixRounds_6 : sixRounds 6 afterRound5 = afterRound11 := by decide +kernel
theorem sixRounds_12 : sixRounds 12 afterRound11 = afterRound17 := by decide +kernel
theorem sixRounds_18 : sixRounds 18 afterRound17 = zeroPermuted := by decide +kernel

theorem permute_eq_sixRounds (a : Lanes) : permute a = sixRounds 18 (sixRounds 12 (sixRounds 6 (sixRounds 0 a))) := by
  unfold permute sixRounds
  simp only [← List.foldl_append]
  congr 1

theorem test_permute_known_answer : permute zeroLanes = zeroPermuted := by
  rw [permute_eq_sixRounds, sixRounds_0, sixRounds_6, sixRounds_12, sixRounds_18]

/- Byte map: V32, and the worked example of R52. -/

theorem test_byte_map : memXor 9 0xAB zeroLanes = some (zeroLanes.set 1 0xAB00) ∧
    memRead 167 (zeroLanes.set 20 0x8000000000000000) = some 0x80 ∧
    memRead 3 (zeroLanes.set 0 0xF1258F7940E1DDE7) = some 0x40 ∧ memRead 200 zeroLanes = none := by decide +kernel

/- The commands: V30 to V34, V50 to V56, programs P1 and P3. -/

theorem test_init : nextHas (step (issuing 0x1100 (faulted (ctx .padded 168 168 0x1F)))) (fun t =>
    t.rate == 136 && t.pos == 0 && t.phase == .created && t.fault == .noFault && t.fcmd == 0 && t.lanes == zeroLanes) =
    true := by decide +kernel
theorem test_init_bad_parameter : nextHas (step (issuing 0x1320 (ctx .absorbing 168 1 0x61))) (fun t =>
    t.fault == .badParameter && t.fcmd == 0x1320 && t.rate == 168 && t.pos == 1 && t.phase == .absorbing &&
    t.lanes[0] == 0x61) = true := by decide +kernel

theorem test_absorb : nextHas (step (issuing 0x2063 (ctx .absorbing 168 2 0x6261))) (fun t =>
    t.lanes == zeroLanes.set 0 0x636261 && t.pos == 3 && t.phase == .absorbing && t.perms == 0) = true := by
  decide +kernel
theorem test_absorb_fills_block : nextHas (exec (.absorb 0x62) (ctx .absorbing 2 1 0x61)) (fun t =>
    t.pos == 0 && t.perms == 1 && t.permPulse && t.phase == .absorbing) = true := by decide +kernel

theorem test_finalize : nextHas (exec .finalize (ctx .absorbing 168 3 0x636261)) (fun t =>
    t.lanes == (zeroLanes.set 0 0x1F636261).set 20 0x8000000000000000 && t.pos == 168 && t.phase == .padded &&
    t.perms == 0) = true := by decide +kernel
theorem test_finalize_overlap : nextHas (exec .finalize (ctx .absorbing 1 0 0xE2A944396F0B13C6)) (fun t =>
    t.lanes[0] == 0xE2A944396F0B1359 && t.pos == 1) = true := by decide +kernel

theorem test_squeeze : nextHas (step (issuing 0x4000 (ctx .squeezing 168 2 0x7D828FE8A42B9C7F))) (fun t =>
    t.outByte == some 0x2B && t.outputs == [0x2B] && t.pos == 3 && t.perms == 0) = true := by decide +kernel
theorem test_squeeze_before_init : nextHas (step (issuing 0x4000 State.reset)) (fun t =>
    t.fault == .noContext && t.fcmd == 0x4000 && t.outByte == none && t.phase == .idle && t.everFaulted) = true := by
  decide +kernel

theorem test_permute_runs_in_every_phase : nextHas (step (State.reset.withFetchWord 1 1)) (fun t =>
    t.perms == 1 && t.permPulse && t.phase == .idle && t.fault == .noFault) = true := by decide +kernel

theorem test_illegal_word : nextHas (step (issuing 0x2161 (ctx .created 168 0 0))) (fun t =>
    t.fault == .illegalCommand && t.fcmd == 0x2161 && t.pos == 0 && t.phase == .created) = true := by decide +kernel
theorem test_illegal_word_discarded : nextHas (step (issuing 0x5000 (faulted (ctx .padded 168 168 0x1F)))) (fun t =>
    t.fault == .absorbAfterFinalize && t.fcmd == 0x2062) = true := by decide +kernel
theorem test_reset_between_commands :
    nextHas (step { faulted (ctx .padded 168 168 0x1F) with inputs := [.reset] }) (fun t =>
    t.phase == .idle && t.fault == .noFault && t.fcmd == 0 && t.everFaulted && t.freeCount == 1) = true := by
  decide +kernel

/- Witnesses: for each statement of Certificates/Slice0/Obligations.lean with hypotheses, values that meet them. -/

theorem witness_StepRunsDecodedInstruction :
    (issuing 0x1080 State.reset).inputs = .word (.command 0x1080) :: [] ∧
    decode (.command 0x1080) = .instr (.init 128) := by decide

theorem witness_IllegalWordRaisesIllegalCommand :
    (issuing 0x1400 State.reset).inputs = .word (.command 0x1400) :: [] ∧
    (opField 0x0FFF = 0 ∧ 5 ≤ (opField 0x5000).toNat ∧
      (opField 0x1400 = 1 ∧ (0x1400 : CmdWord).extractLsb' 10 2 ≠ 0) ∧
      (opField 0x2100 = 2 ∧ (0x2100 : CmdWord).extractLsb' 8 4 ≠ 0) ∧
      (opField 0x3001 = 3 ∧ (0x3001 : CmdWord).extractLsb' 0 12 ≠ 0) ∧
      (opField 0x4800 = 4 ∧ (0x4800 : CmdWord).extractLsb' 0 12 ≠ 0)) := by decide

theorem witness_StepWithoutRequestChangesNothing :
    State.reset.inputs = [] ∧ (placeWord (.engine 0) State.reset).inputs = .word (.engine 0) :: [] := by decide

theorem witness_DecodeAndEncodeAgree :
    decode (.engine 1) = .instr .permute ∧ encode (.init 1023) = .command 0x13FF := by decide

theorem witness_AssemblerExpandsLines :
    (1023 : Nat) ≤ 1023 ∧ (∀ b ∈ [0, 255], b ≤ 255) ∧ (∀ c ∈ ['A', 'z'], c.toNat ≤ 127) := by simp

theorem witness_ByteMapIsLittleEndianInLanes : (199 : Nat) < 200 ∧ (198 : Nat) ≠ 199 ∧ (7 : Nat) < 8 := by decide

theorem witness_BarrelRotatesLeft : (63 : Nat) < 64 ∧ (0 : Nat) < 64 := by decide

theorem witness_ThetaAddsColumnParities :
    ∀ x : Fin 5, (((zeroLanes.set 0 (0xDEADBEEF00000001 : Lane)).set 5 0xDEADBEEF00000001)[x.val] ^^^
      ((zeroLanes.set 0 (0xDEADBEEF00000001 : Lane)).set 5 0xDEADBEEF00000001)[x.val + 5]) = 0 ∧
      ((zeroLanes.set 0 (0xDEADBEEF00000001 : Lane)).set 5 0xDEADBEEF00000001)[x.val + 10] = 0 ∧
      ((zeroLanes.set 0 (0xDEADBEEF00000001 : Lane)).set 5 0xDEADBEEF00000001)[x.val + 15] = 0 ∧
      ((zeroLanes.set 0 (0xDEADBEEF00000001 : Lane)).set 5 0xDEADBEEF00000001)[x.val + 20] = 0 := by decide +kernel

theorem witness_RhoRotatesByTriangularOffsets :
    (23 : Nat) < 24 ∧ ((1, 1) : Fin 5 × Fin 5) ≠ (0, 0) ∧ walkPlace 23 = (1, 1) := by decide

theorem witness_ChiMixesRows :
    (∀ x, laneAt zeroLanes x 4 = 0) ∧
    (∀ x, laneAt (Vector.replicate 25 (BitVec.allOnes 64)) x 3 = BitVec.allOnes 64) := by decide +kernel

theorem witness_IotaAddsGeneratedConstant : (24 : Nat) < 25 ∧ (24 : Nat) ≠ 0 := by decide

theorem witness_InitCreatesFreshContext :
    (799#10).toNat ≤ 799 ∧ 800 ≤ (800#10).toNat ∧ State.reset.fault = .noFault ∧
    (faulted State.reset).fault ≠ .noFault := by decide

theorem witness_InitFixesRateAndCapacity :
    (799#10).toNat ≤ 799 ∧ (∃ t, exec (.init 799) State.reset = .next t ∧ (t.rate == 1) = true) ∧
    (256#10).toNat % 4 = 0 ∧ (∃ t, exec (.init 256) State.reset = .next t ∧ (t.rate == 136) = true) ∧
    ∃ t, exec (.init 128) State.reset = .next t ∧ (t.rate == 168) = true :=
  ⟨by decide, exists_of_nextHas (by decide +kernel), by decide, exists_of_nextHas (by decide +kernel),
    exists_of_nextHas (by decide +kernel)⟩

theorem witness_InitForgetsOldContext : (0#10).toNat ≤ 799 ∧ (799#10).toNat ≤ 799 := by decide

/-- The hypotheses that ABSORB and FINALIZE share, at both ends: the cursor at `rate - 1` with the rates 1 and 200. -/
theorem witness_absorbing_boundaries :
    let s := ctx .created 1 0 0
    let u := ctx .absorbing 200 199 0
    (s.fault = .noFault ∧ s.phase = .created ∧ s.pos.toNat + 1 ≤ s.rate.toNat ∧ s.rate.toNat ≤ 200) ∧
    (u.fault = .noFault ∧ u.phase = .absorbing ∧ u.pos.toNat + 1 ≤ u.rate.toNat ∧ u.rate.toNat ≤ 200) := by decide

theorem witness_AbsorbXorsByteAndPermutesFullBlock :
    let s := ctx .absorbing 200 198 0
    (s.fault = .noFault ∧ s.phase = .absorbing ∧ s.pos.toNat + 1 ≤ s.rate.toNat ∧ s.rate.toNat ≤ 200 ∧
      s.pos.toNat + 1 ≠ s.rate.toNat) ∧
    State.reset.phase = .idle ∧ (ctx .padded 168 168 0).phase = .padded ∧ (ctx .squeezing 168 1 0).phase = .squeezing ∧
    (faulted s).fault ≠ .noFault := by decide

theorem witness_FinalizePadsAndMovesCursorToRate :
    State.reset.phase = .idle ∧ State.reset.fault = .noFault ∧ (ctx .padded 168 168 0).fault = .noFault ∧
    (ctx .padded 168 168 0).phase = .padded ∧ (faulted (ctx .created 168 0 0)).fault ≠ .noFault := by decide

theorem witness_FinalizeOverlapXorsBothPadBytes :
    cursorPosition (ctx .absorbing 200 199 0) = lastRatePosition (ctx .absorbing 200 199 0) ∧
    cursorPosition (ctx .created 2 0 0) ≠ lastRatePosition (ctx .created 2 0 0) := by decide

theorem witness_SqueezeOutputsByteAtCursor :
    let s := ctx .padded 200 200 0
    let u := ctx .squeezing 200 199 0
    (s.fault = .noFault ∧ s.phase = .padded ∧ s.pos.toNat ≤ s.rate.toNat ∧ 1 ≤ s.rate.toNat ∧ s.rate.toNat ≤ 200 ∧
      s.pos = s.rate) ∧
    (u.fault = .noFault ∧ u.phase = .squeezing ∧ u.pos.toNat ≤ u.rate.toNat ∧ u.pos ≠ u.rate) ∧
    State.reset.phase = .idle ∧ (ctx .created 168 0 0).phase = .created ∧ (ctx .absorbing 168 1 0).phase = .absorbing ∧
    (faulted s).fault ≠ .noFault := by decide

theorem witness_FaultEntryChangesOnlyFaultRegisters :
    State.reset.fault = .noFault ∧ tableCause .idle .squeeze = some .noContext ∧
    tableCause .created .squeeze = some .squeezeBeforeFinalize ∧ tableCause .padded .finalize = some .finalizeRepeated ∧
    tableCause .squeezing (.absorb 0) = some .absorbAfterFinalize ∧ tableCause .idle (.init 800) = some .badParameter := by
  decide

theorem witness_StickyFaultDiscardsCommands :
    (faulted (ctx .padded 168 168 0)).fault ≠ .noFault ∧ onCommandPort (.init 800) = true ∧ goodInit (.init 800) = false ∧
    (issuing 0x5000 (faulted State.reset)).fault ≠ .noFault ∧
    (issuing 0x5000 (faulted State.reset)).inputs = .word (.command 0x5000) :: [] ∧ commandWf 0x5000 = false := by decide

/-- States of every phase that meet the invariant, at the ends of the ranges of R148. -/
theorem witness_invariant :
    State.reset.Inv ∧ (ctx .created 1 0 0).Inv ∧ (ctx .absorbing 200 199 0).Inv ∧ (ctx .padded 200 200 0).Inv ∧
    (ctx .squeezing 200 1 0).Inv ∧ (ctx .squeezing 1 1 0).Inv ∧ (faulted (ctx .padded 168 168 0)).Inv := by
  refine ⟨⟨?_, ?_, ?_⟩, ⟨?_, ?_, ?_⟩, ⟨?_, ?_, ?_⟩, ⟨?_, ?_, ?_⟩, ⟨?_, ?_, ?_⟩, ⟨?_, ?_, ?_⟩, ⟨?_, ?_, ?_⟩⟩ <;>
    simp [cursorFits, faultFits, faultRecorded, rateOk, Config.rateMax, State.reset, ctx, faulted]
  exact ⟨0x62, by decide⟩

theorem witness_PhaseTableIsFollowed :
    (ctx .absorbing 200 199 0).Inv ∧ onCommandPort .finalize = true ∧
    (issuing 0x3001 State.reset).inputs = .word (.command 0x3001) :: [] ∧
    decodeCommand 0x3001 = .rejected .reservedBitSet :=
  ⟨witness_invariant.2.2.1, by decide, by decide, by decide⟩

theorem witness_FaultRecordIsNeverCleared :
    (∃ t, step (issuing 0x4000 State.reset) = .next t ∧ (t.fault == .noContext) = true) ∧
    State.reset.fault = .noFault ∧ (faulted State.reset).everFaulted = true ∧
    ∃ t, step (issuing 0x1080 (faulted State.reset)) = .next t ∧ (t.fault == .noFault) = true :=
  ⟨exists_of_nextHas (by decide +kernel), by decide, by decide, exists_of_nextHas (by decide +kernel)⟩

theorem witness_ResetIsEnabledInEveryState :
    ({ ctx .squeezing 168 1 0 with inputs := [.reset] } : State).inputs = .reset :: [] := by decide

theorem witness_ResetAbandonsCommand :
    let s := { ctx .padded 168 168 0 with inputs := [.resetDuring (.command 0x4000)] }
    s.inputs = .resetDuring (.command 0x4000) :: [] ∧ ∃ t, step s = .next t ∧ (t.phase == .idle) = true :=
  ⟨by decide, exists_of_nextHas (by decide +kernel)⟩

theorem witness_UnspecifiedValuesCannotBeObserved :
    State.reset.phase = .idle ∧ onCommandPort (.init 128) = true ∧ onCommandPort .squeeze = true ∧
    (exec (.init 799) State.reset = .next (afterInit 799 State.reset) ∧
      (afterInit 799 State.reset).phase ≠ .idle) := by
  refine ⟨by decide, by decide, by decide, ?_, by decide⟩
  simp only [exec_init, execInit, show initCause 799 = none by decide, guarded_runs_init]
  rfl

theorem witness_frames :
    (∃ t, exec (.init 128) State.reset = .next t ∧ (t.phase == .created) = true) ∧
    (∃ t, exec (.absorb 0x61) (ctx .created 168 0 0) = .next t ∧ (t.perms == 0 && t.pos != 0) = true) ∧
    (∃ t, exec .finalize (ctx .absorbing 168 1 0x61) = .next t ∧ (t.phase == .padded) = true) ∧
    (∃ t, exec .squeeze (ctx .squeezing 168 1 0x61) = .next t ∧ (t.perms == 0) = true) ∧
    (∃ t, exec .permute State.reset = .next t ∧ (t.permPulse) = true) :=
  ⟨exists_of_nextHas (by decide +kernel), exists_of_nextHas (by decide +kernel), exists_of_nextHas (by decide +kernel),
    exists_of_nextHas (by decide +kernel), exists_of_nextHas (by decide +kernel)⟩

theorem witness_PermutationTriggerIsCursorAtRate :
    (∃ t, exec (.absorb 0x61) (ctx .absorbing 168 167 0) = .next t ∧ (t.perms == 1) = true) ∧
    (ctx .absorbing 168 167 0).pos + 1 = (ctx .absorbing 168 167 0).rate ∧
    (∃ t, exec .squeeze (ctx .squeezing 168 168 0) = .next t ∧ (t.perms == 1) = true) ∧
    ∃ t, step { ctx .squeezing 168 168 0 with inputs := [.reset] } = .next t ∧ (t.perms == 0) = true :=
  ⟨exists_of_nextHas (by decide +kernel), by decide, exists_of_nextHas (by decide +kernel),
    exists_of_nextHas (by decide +kernel)⟩

theorem witness_OnlySqueezeProducesOutput :
    (∃ t, exec .squeeze (ctx .squeezing 168 1 0x6261) = .next t ∧ (t.outByte == some 0x62) = true) ∧
    ∃ t, exec .squeeze (ctx .created 168 0 0) = .next t ∧ (t.outByte == none) = true :=
  ⟨exists_of_nextHas (by decide +kernel), exists_of_nextHas (by decide +kernel)⟩

theorem witness_CreatedLanesStayZero :
    hostOnly (issuing 0x1080 State.reset) ∧ freshIsZero (issuing 0x1080 State.reset) ∧
    ∃ t, step (issuing 0x1080 State.reset) = .next t ∧ (t.phase == .created) = true :=
  ⟨by simp [hostOnly, issuing, placeWord, State.reset], by simp [freshIsZero, issuing, placeWord, State.reset],
    exists_of_nextHas (by decide +kernel)⟩

theorem witness_CapacityIsNotTouchedDirectly :
    (ctx .absorbing 200 199 0).Inv ∧ (∀ sec, Instr.finalize ≠ .init sec) ∧
    ∃ t, exec .finalize (ctx .absorbing 200 199 0) = .next t ∧ (t.perms == 0) = true :=
  ⟨witness_invariant.2.2.1, by simp, exists_of_nextHas (by decide +kernel)⟩

theorem witness_SqueezeReadsBelowRate :
    (ctx .squeezing 200 1 0x6261).Inv ∧
    ∃ t, exec .squeeze (ctx .squeezing 200 1 0x6261) = .next t ∧ (t.outByte == some 0x62) = true :=
  ⟨by refine ⟨?_, ?_, ?_⟩ <;> simp [cursorFits, faultFits, faultRecorded, rateOk, Config.rateMax, ctx, State.reset],
    exists_of_nextHas (by decide +kernel)⟩

theorem witness_SqueezeDoesNotLeakCapacity :
    let s := ctx .squeezing 2 1 0x6261
    let a := zeroLanes.set 0 0xFF6261
    (∀ q, q < s.rate.toNat → memRead q a = memRead q s.lanes) ∧ memRead 2 a ≠ memRead 2 s.lanes ∧
    (∃ t, exec .squeeze s = .next t ∧ (t.perms == s.perms) = true) ∧
    ∃ t, exec .squeeze { s with lanes := a } = .next t ∧ (t.perms == 0) = true := by
  refine ⟨?_, by decide +kernel, exists_of_nextHas (by decide +kernel), exists_of_nextHas (by decide +kernel)⟩
  show ∀ q, q < 2 → _
  decide +kernel

theorem witness_two_runs :
    let s := ctx .absorbing 168 1 0x61
    (∃ t, exec (.absorb 0x62) s = .next t ∧ (t.pos == 2) = true) ∧
    ∃ t, exec (.absorb 0x63) { s with lanes := zeroLanes.set 3 7 } = .next t ∧ (t.pos == 2) = true :=
  ⟨exists_of_nextHas (by decide +kernel), exists_of_nextHas (by decide +kernel)⟩

theorem witness_StepsRunInstructionsInOrder :
    ({ State.reset with inputs := [.word (.command 0x1080), .word (.command 0x3000)] } : State).inputs =
      [Instr.init 128, Instr.finalize].map fun i => .word (encode i) := by decide

/-- The same hypotheses serve the statement on chunks; a boundary of each clause: the rates 1 and 200. -/
theorem witness_AbsorbAndSqueezeAreChunkInvariant :
    ((ctx .created 1 0 0).Inv ∧ (ctx .created 1 0 0).fault = .noFault ∧ (ctx .created 1 0 0).phase = .created) ∧
    (ctx .padded 200 200 0).Inv ∧ (ctx .padded 200 200 0).fault = .noFault ∧ (ctx .padded 200 200 0).phase = .padded :=
  ⟨⟨witness_invariant.2.1, by decide, by decide⟩, witness_invariant.2.2.2.1, by decide, by decide⟩

theorem witness_AbsorbedBytesCountBlocks :
    (ctx .created 1 0 0).Inv ∧ (ctx .created 1 0 0).fault = .noFault ∧ (ctx .created 1 0 0).phase = .created :=
  ⟨witness_invariant.2.1, by decide, by decide⟩

theorem witness_SqueezeStreamsPermutedBlocks :
    (ctx .padded 200 200 0).Inv ∧ (ctx .padded 200 200 0).fault = .noFault ∧ (ctx .padded 200 200 0).phase = .padded ∧
    (1 : Nat) ≤ 1 :=
  ⟨witness_invariant.2.2.2.1, by decide, by decide, by decide⟩

theorem witness_CommandsComputeShake : (799#10).toNat ≤ 799 ∧ (128#10).toNat ≤ 799 ∧ (256#10).toNat ≤ 799 := by decide

end Sys2Proof.Tests
end

/-!
PROOF. The byte view of the lanes (spec/20_memory.md R52): the rules of the byte accesses, from the bits of one lane up
to the lane array.
-/

namespace Sys2Proof.Machine

/- One lane. -/

/-- The byte of a lane that position `p` names (R52). -/
def laneByte (l : Lane) (p : Nat) : Byte := (l >>> byteShift p).setWidth 8

/-- A lane with the byte that position `p` names replaced by `v` (R52). -/
def laneWrite (l : Lane) (p : Nat) (v : Byte) : Lane :=
  (l &&& ~~~ ((0xFF : Lane) <<< byteShift p)) ||| (v.setWidth 64 <<< byteShift p)

/-- A lane with `v` XORed into the byte that position `p` names (R52). -/
def laneXor (l : Lane) (p : Nat) (v : Byte) : Lane := l ^^^ (v.setWidth 64 <<< byteShift p)

/-- Bit order within a byte (R54). -/
theorem getLsbD_laneByte (l : Lane) (p : Nat) {k : Nat} (hk : k < 8) :
    (laneByte l p).getLsbD k = l.getLsbD (8 * (p % 8) + k) := by
  simp [laneByte, byteShift, hk]

/-- Two lanes are equal when bit `k` of byte `m` is the same in both, for every `m` and `k`. -/
theorem lane_ext {l l' : Lane} (h : ∀ m < 8, ∀ k < 8, l.getLsbD (8 * m + k) = l'.getLsbD (8 * m + k)) : l = l' := by
  refine BitVec.eq_of_getLsbD_eq fun i hi => ?_
  have hbit := h (i / 8) (by omega) (i % 8) (by omega)
  rwa [Nat.div_add_mod] at hbit

/-- A byte moved to the place of position `p` is on the bits of that byte and nowhere else. -/
theorem getLsbD_byte_shifted (v : Byte) (p : Nat) {m k : Nat} (hm : m < 8) (hk : k < 8) :
    (v.setWidth 64 <<< byteShift p).getLsbD (8 * m + k) = (decide (m = p % 8) && v.getLsbD k) := by
  rw [BitVec.getLsbD_shiftLeft, BitVec.getLsbD_setWidth, byteShift]
  have hi : 8 * m + k < 64 := by omega
  rcases Nat.lt_trichotomy m (p % 8) with hlt | rfl | hgt
  · have hbelow : 8 * m + k < 8 * (p % 8) := by omega
    simp [hbelow, hlt.ne]
  · have hk64 : k < 64 := by omega
    simp [hi, hk64]
  · have habove : v.getLsbD (8 * m + k - 8 * (p % 8)) = false := BitVec.getLsbD_of_ge v _ (by omega)
    simp [habove, hgt.ne']

theorem getLsbD_laneWrite (l : Lane) (p : Nat) (v : Byte) {m k : Nat} (hm : m < 8) (hk : k < 8) :
    (laneWrite l p v).getLsbD (8 * m + k) = if m = p % 8 then v.getLsbD k else l.getLsbD (8 * m + k) := by
  have mask : (0xFF : Lane) = (BitVec.allOnes 8).setWidth 64 := rfl
  have hi : 8 * m + k < 64 := by omega
  rw [laneWrite, mask, BitVec.getLsbD_or, BitVec.getLsbD_and, BitVec.getLsbD_not, getLsbD_byte_shifted _ _ hm hk,
    getLsbD_byte_shifted _ _ hm hk, BitVec.getLsbD_allOnes]
  split <;> simp [*]

theorem getLsbD_laneXor (l : Lane) (p : Nat) (v : Byte) {m k : Nat} (hm : m < 8) (hk : k < 8) :
    (laneXor l p v).getLsbD (8 * m + k) =
      if m = p % 8 then l.getLsbD (8 * m + k) ^^ v.getLsbD k else l.getLsbD (8 * m + k) := by
  rw [laneXor, BitVec.getLsbD_xor, getLsbD_byte_shifted _ _ hm hk]
  split <;> simp [*]

theorem laneByte_laneWrite_same (l : Lane) (p : Nat) (v : Byte) : laneByte (laneWrite l p v) p = v := by
  refine BitVec.eq_of_getLsbD_eq fun k hk => ?_
  rw [getLsbD_laneByte _ _ hk, getLsbD_laneWrite _ _ _ (Nat.mod_lt _ (by decide)) hk, if_pos rfl]

theorem laneByte_laneWrite_other (l : Lane) {p q : Nat} (v : Byte) (hne : q % 8 ≠ p % 8) :
    laneByte (laneWrite l p v) q = laneByte l q := by
  refine BitVec.eq_of_getLsbD_eq fun k hk => ?_
  rw [getLsbD_laneByte _ _ hk, getLsbD_laneByte _ _ hk, getLsbD_laneWrite _ _ _ (Nat.mod_lt _ (by decide)) hk,
    if_neg hne]

/-- XORing into a byte is writing the XOR of what was there (R10). -/
theorem laneXor_eq_laneWrite (l : Lane) (p : Nat) (v : Byte) : laneXor l p v = laneWrite l p (laneByte l p ^^^ v) := by
  refine lane_ext fun m hm k hk => ?_
  rw [getLsbD_laneXor _ _ _ hm hk, getLsbD_laneWrite _ _ _ hm hk, BitVec.getLsbD_xor, getLsbD_laneByte _ _ hk]
  split
  next hplace => rw [hplace]
  next => rfl

/-- A byte appended below `x` is byte 0, and byte `m` of `x` becomes byte `m + 1`. -/
theorem getLsbD_append_byte {w : Nat} (x : BitVec w) (b : Byte) (m : Nat) {k : Nat} (hk : k < 8) :
    (x ++ b).getLsbD (8 * m + k) = if m = 0 then b.getLsbD k else x.getLsbD (8 * (m - 1) + k) := by
  rw [BitVec.getLsbD_append]
  by_cases hm : m = 0
  · simp [hm, hk]
  · have hrest : 8 * m + k - 8 = 8 * (m - 1) + k := by omega
    rw [if_neg (by omega), if_neg hm, hrest]

theorem getLsbD_packLane (b : Nat → Byte) {m k : Nat} (hm : m < 8) (hk : k < 8) :
    (packLane b).getLsbD (8 * m + k) = (b m).getLsbD k := by
  unfold packLane
  simp only [getLsbD_append_byte _ _ _ hk]
  interval_cases m <;> simp

/- The lane array. -/

theorem memRead_eq {p : Nat} (a : Lanes) (hp : p < 200) : memRead p a = some (laneByte a[p / 8] p) := dif_pos hp

theorem memWrite_eq {p : Nat} (v : Byte) (a : Lanes) (hp : p < 200) :
    memWrite p v a = some (a.set (p / 8) (laneWrite a[p / 8] p v)) := dif_pos hp

theorem memXor_eq {p : Nat} (v : Byte) (a : Lanes) (hp : p < 200) :
    memXor p v a = some (a.set (p / 8) (laneXor a[p / 8] p v)) := dif_pos hp

theorem byteAt_eq {p : Nat} (a : Lanes) (hp : p < 200) : byteAt a p = laneByte a[p / 8] p := by
  rw [byteAt, memRead_eq a hp, Option.getD_some]

/-- `MemXor` is `MemWrite` of the XOR of the byte that was there, and as partial (R10, R56). -/
theorem memXor_eq_memWrite (p : Nat) (v : Byte) (a : Lanes) :
    memXor p v a = (memRead p a).bind fun b => memWrite p (b ^^^ v) a := by
  by_cases hp : p < 200
  · rw [memXor_eq v a hp, memRead_eq a hp, Option.bind_some, memWrite_eq _ a hp, laneXor_eq_laneWrite]
  · simp [memXor, memRead, hp]

theorem memRead_memWrite_same {p : Nat} {v : Byte} {a a' : Lanes} (h : memWrite p v a = some a') :
    memRead p a' = some v := by
  have hp : p < 200 := by simpa [h] using memWrite_isSome p v a
  obtain rfl := Option.some.inj ((memWrite_eq v a hp).symm.trans h)
  rw [memRead_eq _ hp, Vector.getElem_set_self, laneByte_laneWrite_same]

/-- The frame of a byte write: every other position, in the same lane or another, reads as before. -/
theorem memRead_memWrite_other {p q : Nat} {v : Byte} {a a' : Lanes} (h : memWrite p v a = some a') (hne : q ≠ p) :
    memRead q a' = memRead q a := by
  have hp : p < 200 := by simpa [h] using memWrite_isSome p v a
  obtain rfl := Option.some.inj ((memWrite_eq v a hp).symm.trans h)
  by_cases hq : q < 200
  · rw [memRead_eq _ hq, memRead_eq _ hq, Vector.getElem_set]
    split
    next hlane => simp only [hlane, laneByte_laneWrite_other a[q / 8] v (show q % 8 ≠ p % 8 by omega)]
    next => rfl
  · simp [memRead, hq]

/-- A byte XOR that is made is the write of the XOR of a byte that was there. -/
theorem memXor_some {p : Nat} {v : Byte} {a a' : Lanes} (h : memXor p v a = some a') :
    ∃ b, memRead p a = some b ∧ memWrite p (b ^^^ v) a = some a' := by
  rwa [memXor_eq_memWrite, Option.bind_eq_some_iff] at h

theorem memRead_memXor_same {p : Nat} {v : Byte} {a a' : Lanes} (h : memXor p v a = some a') :
    memRead p a' = (memRead p a).map (· ^^^ v) := by
  obtain ⟨b, hb, hw⟩ := memXor_some h
  rw [memRead_memWrite_same hw, hb, Option.map_some]

/-- The frame of a byte XOR (R52: it changes no bit outside byte `p`). -/
theorem memRead_memXor_other {p q : Nat} {v : Byte} {a a' : Lanes} (h : memXor p v a = some a') (hne : q ≠ p) :
    memRead q a' = memRead q a := by
  obtain ⟨_, _, hw⟩ := memXor_some h
  exact memRead_memWrite_other hw hne

/-- A lane is its eight bytes, the byte at the lowest position the least significant (R52). -/
theorem lane_eq_packLane (a : Lanes) (i : Fin 25) : a[i] = packLane fun k => byteAt a (8 * i.val + k) := by
  refine lane_ext fun m hm k hk => ?_
  have hlane : (8 * i.val + m) / 8 = i.val := by omega
  have hplace : (8 * i.val + m) % 8 = m := by omega
  rw [getLsbD_packLane _ hm hk, byteAt_eq a (by omega), getLsbD_laneByte _ _ hk, hplace]
  simp only [hlane, Fin.getElem_fin]

/-- Settles O8, from the rules of the three byte accesses and the bytes of a lane. -/
theorem byteMapIsLittleEndianInLanes : Obligations.ByteMapIsLittleEndianInLanes := by
  refine ⟨fun a p hp => ?_, fun a p v hp => ?_, fun a p v hp => ?_, lane_eq_packLane⟩
  · exact ⟨_, memRead_eq a hp, fun _ => getLsbD_laneByte _ p⟩
  · have hw := memWrite_eq v a hp
    exact ⟨_, hw, memRead_memWrite_same hw, fun _ => memRead_memWrite_other hw⟩
  · have hx := memXor_eq v a hp
    exact ⟨_, hx, memRead_memXor_same hx, fun _ => memRead_memXor_other hx⟩

end Sys2Proof.Machine

/-!
PROOF. The assembler (spec/30_encoding.md R91 to R93): the word of each operand in its range, then the words of a list
of bytes, of a text, of repeated SQUEEZEs and of a whole SHAKE call.
-/

namespace Sys2Proof.Machine

/-- A well-formed line assembles to the words of the commands it expands to. -/
theorem assembleLine_eq {l : AsmLine} {words : List PortWord} (hwf : l.wf = true)
    (hwords : (expandLine l).map encode = words) : assembleLine l = some words := by
  rw [assembleLine, if_pos hwf, hwords]

/-- No operand bit is lost: 10 bits hold every number up to 1023. -/
theorem encode_init_ofNat {n : Nat} (hn : n ≤ 1023) :
    encode (.init (BitVec.ofNat 10 n)) = .command (0x1000 ||| BitVec.ofNat 16 n) := by
  rw [encode, initWord, BitVec.setWidth_ofNat_of_le_of_lt (by decide) (by omega)]

/-- No operand bit is lost: 8 bits hold every number up to 255. -/
theorem encode_absorb_ofNat {b : Nat} (hb : b ≤ 255) :
    encode (.absorb (BitVec.ofNat 8 b)) = .command (0x2000 ||| BitVec.ofNat 16 b) := by
  rw [encode, absorbWord, BitVec.setWidth_ofNat_of_le_of_lt (by decide) (by omega)]

theorem map_encode_absorbAll {bytes : List Nat} (h : ∀ b ∈ bytes, b ≤ 255) :
    (absorbAll bytes).map encode = bytes.map fun b => .command (0x2000 ||| BitVec.ofNat 16 b) := by
  rw [absorbAll, List.map_map]
  exact List.map_congr_left fun b hb => encode_absorb_ofNat (h b hb)

/-- An ASCII character is a byte, so a text gives one ABSORB word per character. -/
theorem map_encode_absorbAll_textBytes {text : List Char} (h : ∀ c ∈ text, c.toNat ≤ 127) :
    (absorbAll (textBytes text)).map encode =
      text.map fun c => .command (0x2000 ||| BitVec.ofNat 16 c.toNat) := by
  have hbytes : ∀ b ∈ textBytes text, b ≤ 255 := by
    intro b hb
    obtain ⟨c, hc, rfl⟩ := List.mem_map.mp hb
    exact (h c hc).trans (by decide)
  rw [map_encode_absorbAll hbytes, textBytes, List.map_map]
  rfl

theorem map_encode_squeezeTimes (n : Nat) : (squeezeTimes n).map encode = List.replicate n (.command 0x4000) :=
  List.map_replicate

theorem map_encode_shakeCommands {sec : Nat} {text : List Char} (hsec : sec ≤ 1023) (h : ∀ c ∈ text, c.toNat ≤ 127)
    (n : Nat) :
    (shakeCommands sec text n).map encode = .command (0x1000 ||| BitVec.ofNat 16 sec) ::
      (text.map fun c => .command (0x2000 ||| BitVec.ofNat 16 c.toNat)) ++
      .command 0x3000 :: List.replicate n (.command 0x4000) := by
  rw [shakeCommands, List.map_cons, List.map_append, List.map_cons, encode_init_ofNat hsec,
    map_encode_absorbAll_textBytes h, map_encode_squeezeTimes]
  rfl

/-- Settles O7, line by line: a line in range is well formed, and its commands encode to the words listed. -/
theorem assemblerExpandsLines : Obligations.AssemblerExpandsLines := by
  refine ⟨fun n hn => ?init, fun b hb => ?absorb, rfl, rfl, fun bytes hbytes => ?absorbN, fun text htext => ?text,
    fun n => ?squeezeN⟩
  case init => exact assembleLine_eq (decide_eq_true hn) (congrArg ([·]) (encode_init_ofNat hn))
  case absorb => exact assembleLine_eq (decide_eq_true hb) (congrArg ([·]) (encode_absorb_ofNat hb))
  case absorbN =>
    have hwf : (AsmLine.absorbN bytes).wf = true := by simpa [AsmLine.wf, asmByteWf] using hbytes
    exact assembleLine_eq hwf (map_encode_absorbAll hbytes)
  case text =>
    have hwf : asmTextWf text = true := by simpa [asmTextWf] using htext
    refine ⟨assembleLine_eq hwf (map_encode_absorbAll_textBytes htext), fun n => ⟨?_, ?_⟩⟩
    · exact assembleLine_eq hwf (map_encode_shakeCommands (sec := 128) (by decide) htext n)
    · exact assembleLine_eq hwf (map_encode_shakeCommands (sec := 256) (by decide) htext n)
  case squeezeN => exact assembleLine_eq rfl (map_encode_squeezeTimes n)

end Sys2Proof.Machine

/-!
PROOF. The output port and its record (spec/30_encoding.md R83): what each way an instruction can run leaves there.
-/

namespace Sys2Proof.Machine

@[simp] theorem discarded_outByte (s : State) : (discarded s).outByte = none := rfl
@[simp] theorem discarded_outputs (s : State) : (discarded s).outputs = s.outputs := rfl

@[simp] theorem raised_outByte (c : FaultCause) (w : CmdWord) (s : State) : (raised c w s).outByte = none := rfl
@[simp] theorem raised_outputs (c : FaultCause) (w : CmdWord) (s : State) : (raised c w s).outputs = s.outputs := rfl

@[simp] theorem afterInit_outByte (sec : BitVec 10) (s : State) : (afterInit sec s).outByte = none := rfl
@[simp] theorem afterInit_outputs (sec : BitVec 10) (s : State) : (afterInit sec s).outputs = s.outputs := rfl

@[simp] theorem afterAbsorb_outByte (a : Lanes) (s : State) : (afterAbsorb a s).outByte = none := by simp [afterAbsorb]
@[simp] theorem afterAbsorb_outputs (a : Lanes) (s : State) : (afterAbsorb a s).outputs = s.outputs := by
  simp [afterAbsorb]

@[simp] theorem afterFinalize_outByte (a : Lanes) (s : State) : (afterFinalize a s).outByte = none := rfl
@[simp] theorem afterFinalize_outputs (a : Lanes) (s : State) : (afterFinalize a s).outputs = s.outputs := rfl

@[simp] theorem afterSqueeze_outByte (b : Byte) (s : State) : (afterSqueeze b s).outByte = some b := rfl
@[simp] theorem afterSqueeze_outputs (b : Byte) (s : State) : (afterSqueeze b s).outputs = s.outputs ++ [b] := by
  simp [afterSqueeze]

/-- The phases in which SQUEEZE raises no fault (R145). -/
theorem tableCause_squeeze_eq_none_iff (p : Phase) : tableCause p .squeeze = none ↔ p = .padded ∨ p = .squeezing := by
  cases p <;> decide

/-- Settles O37, by the ways an instruction can run: only an executed SQUEEZE meets the condition, and it emits. -/
theorem onlySqueezeProducesOutput : Obligations.OnlySqueezeProducesOutput := by
  intro i s t h
  cases exec_next h with
  | discard hf => simp [hf]
  | raise _ _ hc => simp [hc]
  | init => simp
  | absorb => simp
  | finalize => simp
  | @squeeze b hf hp =>
    rw [if_pos ⟨rfl, hf, (tableCause_squeeze_eq_none_iff _).mpr hp⟩]
    exact ⟨b, afterSqueeze_outByte b s, afterSqueeze_outputs b s⟩
  | permute => simp

end Sys2Proof.Machine

/-!
PROOF. The permutation engine (spec/40_permutation.md R101 to R117): the rotation barrel by bits, each stage by the
coordinates of the lanes, the fused walk, and the meaning of PERMUTE.
-/

namespace Sys2Proof.Machine

/- The rotation barrel. -/

@[simp] theorem rol64_zero_amount (v : Lane) : rol64 v 0 = v := if_pos rfl

theorem rol64_zero (n : Nat) : rol64 0 n = 0 := by simp [rol64]

/-- The barrel is the library's rotation: at the amount 0, the only one that R103 sets apart, the two shifts agree with
that case. -/
theorem rol64_eq_rotateLeft (v : Lane) {n : Nat} (hn : n < 64) : rol64 v n = v.rotateLeft n := by
  rw [BitVec.rotateLeft_def, Nat.mod_eq_of_lt hn, rol64]
  split
  next hzero => rw [hzero, BitVec.shiftLeft_zero, BitVec.ushiftRight_eq_zero (by decide), BitVec.or_zero]
  next => rfl

/-- Settles O10, by whether bit `i` wraps around the end of the lane. -/
theorem barrelRotatesLeft : Obligations.BarrelRotatesLeft := by
  refine fun v => ⟨rol64_zero_amount v, fun n i hn hi => ?_⟩
  rw [rol64_eq_rotateLeft v hn, BitVec.getLsbD_rotateLeft, Nat.mod_eq_of_lt hn]
  by_cases hwrap : i + n < 64
  · simp [Nat.mod_eq_of_lt hwrap, hwrap]
  · have hbit : 64 - n + (i + n) % 64 = i := by omega
    have hlow : (i + n) % 64 < n := by omega
    rw [decide_eq_true hlow, cond_true, hbit]

/- Lanes by coordinates (R21). -/

/-- The index of the lane at `(x, y)` (R21). -/
def laneIndex (x y : Fin 5) : Fin 25 := ⟨x.val + 5 * y.val, by omega⟩

theorem laneAt_eq (a : Lanes) (x y : Fin 5) : laneAt a x y = a[laneIndex x y] := rfl

@[simp] theorem column_laneIndex (x y : Fin 5) : column (laneIndex x y) = x :=
  Fin.ext (by simp only [column, laneIndex]; omega)

@[simp] theorem row_laneIndex (x y : Fin 5) : row (laneIndex x y) = y :=
  Fin.ext (by simp only [row, laneIndex]; omega)

theorem laneIndex_column_row (i : Fin 25) : laneIndex (column i) (row i) = i := Fin.ext (Nat.mod_add_div i.val 5)

/-- Lane arrays are equal when they agree at every index. -/
theorem lanes_ext {a b : Lanes} (h : ∀ i : Fin 25, a[i] = b[i]) : a = b := Vector.ext fun i hi => h ⟨i, hi⟩

/-- Lane arrays are equal when they agree at all coordinates. -/
theorem lanes_ext_laneAt {a b : Lanes} (h : ∀ x y, laneAt a x y = laneAt b x y) : a = b := by
  refine lanes_ext fun i => ?_
  have hlane := h (column i) (row i)
  simpa only [laneAt_eq, laneIndex_column_row] using hlane

theorem laneAt_ofFn (f : Fin 25 → Lane) (x y : Fin 5) : laneAt (Vector.ofFn f) x y = f (laneIndex x y) :=
  Vector.getElem_ofFn _

/- THETA. -/

theorem laneAt_theta (a : Lanes) (x y : Fin 5) : laneAt (theta a) x y = laneAt a x y ^^^ thetaMask a x := by
  rw [theta, laneAt_ofFn, column_laneIndex, laneAt_eq]

/-- Settles O11: a column's mask is made of two parities of the old lanes, so it is zero where all parities are. -/
theorem thetaAddsColumnParities : Obligations.ThetaAddsColumnParities := by
  intro a c
  have hparity : c = colParity a := rfl
  rw [hparity]
  refine ⟨laneAt_theta a, fun hzero => lanes_ext_laneAt fun x y => ?_⟩
  have hmask : thetaMask a x = 0#64 := by rw [thetaMask, hzero, hzero, rol64_zero, BitVec.xor_self]
  rw [laneAt_theta, hmask, BitVec.xor_zero]

/- RHO. -/

theorem getElem_rho (a : Lanes) (i : Fin 25) : (rho a)[i] = rol64 a[i] rhoTable[i] := Vector.getElem_ofFn _

theorem laneAt_rho (a : Lanes) (x y : Fin 5) :
    laneAt (rho a) x y = rol64 (laneAt a x y) rhoTable[x.val + 5 * y.val] := getElem_rho a (laneIndex x y)

/-- Settles O12: the rotation table holds the triangular numbers along the walk, which covers every lane but lane 0. -/
theorem rhoRotatesByTriangularOffsets : Obligations.RhoRotatesByTriangularOffsets := by
  refine fun a => ⟨?_, fun t ht => ?_, fun x y hxy => ?_⟩
  · exact (laneAt_rho a 0 0).trans (rol64_zero_amount _)
  · rw [laneAt_rho, rhoTable_walkPlace ⟨t, ht⟩]
  · obtain ⟨t, ht⟩ := walkPlace_covers x y hxy
    exact ⟨t, t.isLt, ht⟩

/- PI. -/

/-- The lane at `i` goes to `PIDST[i]` (R111). -/
theorem getElem_pi_piDst (a : Lanes) (i : Fin 25) : (pi a)[piDst[i]] = a[i] := by
  have hsource : (pi a)[piDst[i]] = a[piSrc[piDst[i]]] := Vector.getElem_ofFn _
  simpa only [piSrc_piDst] using hsource

/-- `PIDST` in coordinates (R110). -/
theorem piDst_laneIndex (x y : Fin 5) : piDst[laneIndex x y] = laneIndex y (2 * x + 3 * y) := by
  refine Fin.ext ?_
  rw [piDst_eq, column_laneIndex, row_laneIndex, laneIndex]

/-- Settles O13, by the destination table in coordinates. -/
theorem piMovesLanes : Obligations.PiMovesLanes := by
  intro a x y
  have hmove := getElem_pi_piDst a (laneIndex x y)
  simpa only [piDst_laneIndex, ← laneAt_eq] using hmove

/- The fused walk (R112). -/

/-- One step of the walk: the carried lane, rotated, takes the place of the lane that is carried next. -/
def walkStep (p : Lanes × Lane) (step : Nat × Fin 25) : Lanes × Lane :=
  (p.1.set step.2 (rol64 p.2 step.1), p.1[step.2])

/-- A step that follows another rotates and moves the lane that the other one picked up, as RHO and PI do. -/
def WalkLink (s t : Nat × Fin 25) : Prop := t = (rhoTable[s.2], piDst[s.2])

theorem rhoPiWalk_eq (a : Lanes) : rhoPiWalk a = (walkTable.foldl walkStep (a, a[1])).1 := rfl

/-- The steps are linked from the start, where lane 1 is carried. -/
theorem walkTable_linked : ((0, 1) :: walkTable).IsChain WalkLink := by
  refine List.isChain_iff_getElem.mpr fun k hk => ?_
  cases k with
  | zero => rfl
  | succ k =>
    have hlen : k + 1 < 24 := Nat.lt_of_succ_lt_succ hk
    have hlink := walkTable_chain ⟨k, Nat.lt_of_succ_lt_succ hlen⟩
    simp only [getElem!_pos walkTable (k + 1) hlen, getElem!_pos walkTable k (Nat.lt_of_succ_lt hlen)] at hlink
    exact hlink

theorem walkTable_nodup : (walkTable.map Prod.snd).Nodup := by decide

theorem walkTable_covers (j : Fin 25) (hj : j ≠ 0) : j ∈ walkTable.map Prod.snd := by
  revert j; decide

/-- Linked steps through distinct places that still hold their old lanes leave PI after RHO at those places, and every
other lane as it was: each lane is carried before its place is overwritten. -/
theorem getElem_foldl_walkStep (a : Lanes) {w : List (Nat × Fin 25)} {s : Nat × Fin 25} {b : Lanes}
    (hlinked : (s :: w).IsChain WalkLink) (hnodup : (w.map Prod.snd).Nodup) (hold : ∀ t ∈ w, b[t.2] = a[t.2])
    (j : Fin 25) :
    (w.foldl walkStep (b, a[s.2])).1[j] = if j ∈ w.map Prod.snd then (pi (rho a))[j] else b[j] := by
  induction w generalizing s b with
  | nil => simp
  | cons t w ih =>
    obtain ⟨hlink, hlinked⟩ := List.isChain_cons_cons.mp hlinked
    obtain ⟨hfresh, hnodup⟩ := List.nodup_cons.mp hnodup
    have hcarry : walkStep (b, a[s.2]) t = (b.set t.2 (pi (rho a))[t.2], a[t.2]) := by
      rw [walkStep, hold t List.mem_cons_self, hlink, getElem_pi_piDst, getElem_rho]
    have hold' : ∀ u ∈ w, (b.set t.2 (pi (rho a))[t.2])[u.2] = a[u.2] := by
      intro u hu
      have hne : t.2 ≠ u.2 := fun h => hfresh (h ▸ List.mem_map_of_mem hu)
      exact (Vector.getElem_set_ne _ _ (Fin.val_ne_of_ne hne)).trans (hold u (List.mem_cons_of_mem _ hu))
    rw [List.foldl_cons, hcarry, ih hlinked hnodup hold', List.map_cons]
    by_cases hrest : j ∈ w.map Prod.snd
    · rw [if_pos hrest, if_pos (List.mem_cons_of_mem _ hrest)]
    · rw [if_neg hrest]
      simp only [List.mem_cons, hrest, or_false]
      split
      next hj => rw [hj]; exact Vector.getElem_set_self _
      next hj => exact Vector.getElem_set_ne _ _ (Fin.val_ne_of_ne (Ne.symm hj))

/-- RHO and PI fix lane 0 (R107, R110). -/
theorem getElem_pi_rho_zero (a : Lanes) : (pi (rho a))[(0 : Fin 25)] = a[(0 : Fin 25)] :=
  calc (pi (rho a))[(0 : Fin 25)] = (rho a)[(0 : Fin 25)] := getElem_pi_piDst (rho a) 0
    _ = rol64 a[(0 : Fin 25)] 0 := getElem_rho a 0
    _ = a[(0 : Fin 25)] := rol64_zero_amount _

/-- Settles O14: the walk visits every lane but lane 0, which RHO and PI fix. -/
theorem fusedWalkIsRhoThenPi : Obligations.FusedWalkIsRhoThenPi := by
  refine fun a => lanes_ext fun j => ?_
  have hwalk := getElem_foldl_walkStep a walkTable_linked walkTable_nodup (fun _ _ => rfl) j
  rw [rhoPiWalk_eq]
  refine hwalk.trans ?_
  by_cases hzero : j = 0
  · rw [hzero, getElem_pi_rho_zero, ite_self]
  · rw [if_pos (walkTable_covers j hzero)]

/- CHI. -/

theorem laneAt_chi (a : Lanes) (x y : Fin 5) :
    laneAt (chi a) x y = laneAt a x y ^^^ (~~~ laneAt a (x + 1) y &&& laneAt a (x + 2) y) := by
  rw [chi, laneAt_ofFn, column_laneIndex, row_laneIndex, laneAt_eq a x y]

/-- Settles O15: in a row of zeros the lane after next clears the AND, in a row of ones the complement does. -/
theorem chiMixesRows : Obligations.ChiMixesRows := by
  refine ⟨laneAt_chi, fun a y hrow x => ?_⟩
  rw [laneAt_chi]
  rcases hrow with hzero | hones
  · simp [hzero (x + 2)]
  · simp [hones (x + 1)]

/- IOTA. -/

/-- No entry of the round-constant ROM is zero (R115). -/
theorem roundConstant_ne_zero (ir : Fin 24) : roundConstant ir ≠ 0 := by revert ir; decide

theorem getElem_iota_zero (ir : Fin 24) (a : Lanes) : (iota ir a)[0] = a[0] ^^^ roundConstant ir :=
  Vector.getElem_set_self _

theorem getElem_iota_of_ne_zero (ir : Fin 24) (a : Lanes) {i : Nat} (hi : i < 25) (hne : i ≠ 0) :
    (iota ir a)[i] = a[i] := Vector.getElem_set_ne _ _ hne.symm

/-- Settles O16: the ROM holds the generated constants, none of them zero. -/
theorem iotaAddsGeneratedConstant : Obligations.IotaAddsGeneratedConstant := by
  refine fun ir a => ⟨?_, fun hsame => ?_, fun i hi hne => getElem_iota_of_ne_zero ir a hi hne⟩
  · rw [getElem_iota_zero, roundConstant_generated]
  · rw [getElem_iota_zero] at hsame
    exact roundConstant_ne_zero ir (by simpa using hsame)

/- PERMUTE. -/

theorem permute_eq_foldl (a : Lanes) :
    permute a = (List.finRange 24).foldl (fun a ir => iota ir (chi (pi (rho (theta a))))) a := by
  unfold permute
  rfl

/-- Settles O18: PERMUTE has one arm, which checks nothing and runs the engine on the lanes. -/
theorem permuteAppliesTwentyFourRounds : Obligations.PermuteAppliesTwentyFourRounds := by
  intro s
  rw [exec_permute, execPermute, runPermutation, quiet, permute_eq_foldl]

end Sys2Proof.Machine

/-!
PROOF. What makes an instruction answer a next state: the converse of `exec_next`, and the byte positions that the
commands access (spec/20_memory.md R51, R56; spec/41_sponge.md R131 to R141; spec/60_exceptions.md R170).
-/

namespace Sys2Proof.Machine

/- The conditions under which a command executes. -/

theorem initCause_eq_none_iff {sec : BitVec 10} : initCause sec = none ↔ sec.toNat ≤ 799 := by
  rw [initCause, ite_eq_right_iff]
  simp only [reduceCtorEq, imp_false]
  omega

theorem initCause_of_ge {sec : BitVec 10} (h : 800 ≤ sec.toNat) : initCause sec = some .badParameter :=
  if_pos (by omega)

/-- The one kind of instruction that the sticky fault does not block (R168). -/
theorem goodInit_iff {i : Instr} : goodInit i = true ↔ ∃ sec, i = .init sec ∧ sec.toNat ≤ 799 := by
  cases i <;> simp [goodInit]

/-- The phases in which ABSORB raises no fault (R145). -/
theorem tableCause_absorb_eq_none_iff (p : Phase) (b : Byte) :
    tableCause p (.absorb b) = none ↔ p = .created ∨ p = .absorbing := by
  cases p <;> simp [tableCause]

/-- The phases in which FINALIZE raises no fault (R145). -/
theorem tableCause_finalize_eq_none_iff (p : Phase) :
    tableCause p .finalize = none ↔ p = .created ∨ p = .absorbing := by
  cases p <;> decide

/-- Every command passes the one check order of R170, with its own word and the cause that the phase table gives; the
sticky fault lets through a good INIT only (R168). -/
theorem exec_eq_guarded {i : Instr} (s : State) (hp : onCommandPort i = true) :
    ∃ isInit run, exec i s = guarded (commandWord i) isInit (tableCause s.phase i) s run ∧
      (goodInit i = false → isInit = false ∨ tableCause s.phase i ≠ none) := by
  cases i with
  | init sec =>
    rw [exec_init, execInit, tableCause_init]
    refine ⟨_, _, rfl, fun hg => .inr fun hc => ?_⟩
    rw [goodInit_iff.mpr ⟨sec, rfl, initCause_eq_none_iff.mp hc⟩] at hg
    cases hg
  | absorb b =>
    rw [exec_absorb, execAbsorb, tableCause_absorb]
    exact ⟨_, _, rfl, fun _ => .inl rfl⟩
  | finalize =>
    rw [exec_finalize, execFinalize, tableCause_finalize]
    exact ⟨_, _, rfl, fun _ => .inl rfl⟩
  | squeeze =>
    rw [exec_squeeze, execSqueeze, tableCause_squeeze]
    exact ⟨_, _, rfl, fun _ => .inl rfl⟩
  | permute => cases hp

/-- Whatever `Ran` describes happens: the converse of `exec_next`. -/
theorem exec_of_ran {i : Instr} {s t : State} (h : Ran s i t) : exec i s = .next t := by
  cases h with
  | discard hf hp hg =>
    obtain ⟨isInit, run, heq, hblocked⟩ := exec_eq_guarded s hp
    exact heq.trans (guarded_discards hf (hblocked hg))
  | raise hf hp hc =>
    obtain ⟨isInit, run, heq, -⟩ := exec_eq_guarded s hp
    rw [heq, hc]
    exact guarded_raises hf
  | init hsec =>
    rw [exec_init, execInit, initCause_eq_none_iff.mpr hsec, guarded_runs_init]
    rfl
  | @absorb b a hf hp ha =>
    rw [exec_absorb, execAbsorb, ← tableCause_absorb _ b, (tableCause_absorb_eq_none_iff _ _).mpr hp, guarded_runs hf]
    exact xorByteThen_eq ha
  | finalize hf hp ha ha' =>
    rw [exec_finalize, execFinalize, ← tableCause_finalize, (tableCause_finalize_eq_none_iff _).mpr hp,
      guarded_runs hf]
    exact (xorByteThen_eq (s := quiet s) ha).trans (xorByteThen_eq ha')
  | squeeze hf hp hb =>
    rw [exec_squeeze, execSqueeze, ← tableCause_squeeze, (tableCause_squeeze_eq_none_iff _).mpr hp, guarded_runs hf]
    exact readByteThen_eq hb
  | permute => rfl

/- The byte positions. -/

/-- With a rate from 1 up the 8-bit subtraction does not wrap (R51). -/
theorem lastRatePosition_eq {s : State} (h : 1 ≤ s.rate.toNat) : lastRatePosition s = s.rate.toNat - 1 := by
  unfold lastRatePosition
  bv_omega

/-- Below the rate the 8-bit increment does not wrap, so the equality of R146 is one of numbers. -/
theorem pos_succ_eq_rate_iff {s : State} (h : s.pos.toNat + 1 ≤ s.rate.toNat) :
    s.pos + 1 = s.rate ↔ s.pos.toNat + 1 = s.rate.toNat := by
  bv_omega

/-- The increment of the cursor, in numbers. -/
theorem pos_succ_eq_ofNat (s : State) : s.pos + 1 = BitVec.ofNat 8 (s.pos.toNat + 1) := by
  bv_omega

/-- SQUEEZE reads at the cursor that the trigger leaves, below the rate (R61). -/
theorem permuteAtRate_pos_lt_rate {s : State} (hpos : s.pos.toNat ≤ s.rate.toNat) (hrate : 1 ≤ s.rate.toNat) :
    (permuteAtRate s).pos.toNat < s.rate.toNat := by
  by_cases heq : s.pos = s.rate
  · rw [permuteAtRate_of_eq heq]
    exact hrate
  · rw [permuteAtRate_of_ne heq]
    bv_omega

/- The commands execute when their positions lie in the state byte space. -/

theorem exec_absorb_executes {s : State} (b : Byte) (hf : s.fault = .noFault)
    (hp : s.phase = .created ∨ s.phase = .absorbing) (hpos : s.pos.toNat + 1 ≤ s.rate.toNat)
    (hmax : s.rate.toNat ≤ 200) :
    ∃ a, memXor (cursorPosition s) b s.lanes = some a ∧ exec (.absorb b) s = .next (afterAbsorb a s) := by
  have ha := memXor_eq b s.lanes (show cursorPosition s < 200 from hpos.trans hmax)
  exact ⟨_, ha, exec_of_ran (.absorb hf hp ha)⟩

theorem exec_finalize_executes {s : State} (hf : s.fault = .noFault)
    (hp : s.phase = .created ∨ s.phase = .absorbing) (hpos : s.pos.toNat + 1 ≤ s.rate.toNat)
    (hmax : s.rate.toNat ≤ 200) :
    ∃ a a', memXor (cursorPosition s) padFirst s.lanes = some a ∧
      memXor (s.rate.toNat - 1) padLast a = some a' ∧ exec .finalize s = .next (afterFinalize a' s) := by
  have ha := memXor_eq padFirst s.lanes (show cursorPosition s < 200 from hpos.trans hmax)
  have hlast : lastRatePosition s = s.rate.toNat - 1 := lastRatePosition_eq (by omega)
  have ha' := fun a => memXor_eq padLast a (show lastRatePosition s < 200 by omega)
  rw [← hlast]
  exact ⟨_, _, ha, ha' _, exec_of_ran (.finalize hf hp ha (ha' _))⟩

theorem exec_squeeze_executes {s : State} (hf : s.fault = .noFault)
    (hp : s.phase = .padded ∨ s.phase = .squeezing) (hpos : s.pos.toNat ≤ s.rate.toNat) (hrate : 1 ≤ s.rate.toNat)
    (hmax : s.rate.toNat ≤ 200) :
    ∃ b, memRead (permuteAtRate (quiet s)).pos.toNat (permuteAtRate (quiet s)).lanes = some b ∧
      exec .squeeze s = .next (afterSqueeze b s) := by
  have hlt : (permuteAtRate (quiet s)).pos.toNat < s.rate.toNat := permuteAtRate_pos_lt_rate (s := quiet s) hpos hrate
  have hb := memRead_eq (permuteAtRate (quiet s)).lanes (hlt.trans_le hmax)
  exact ⟨_, hb, exec_of_ran (.squeeze hf hp hb)⟩

end Sys2Proof.Machine

/-!
PROOF. The four commands whole (spec/41_sponge.md R131 to R141): each executed, faulting and discarded form is one of
the ways an instruction can run.
-/

namespace Sys2Proof.Machine

/-- Settles O19, by the range of the parameter and then by the fault register. -/
theorem initCreatesFreshContext : Obligations.InitCreatesFreshContext := by
  refine fun s sec => ⟨fun hsec => ?_, fun hsec hf => ?_, fun hsec hf => ?_⟩
  · exact exec_of_ran (.init hsec)
  · exact exec_of_ran (.raise hf rfl ((tableCause_init _ _).trans (initCause_of_ge hsec)))
  · exact exec_of_ran (.discard hf rfl (decide_eq_false (by omega)))

/-- The rate fits its register, so nothing of it is lost (R133). -/
theorem rateOfSec_toNat (sec : BitVec 10) : (rateOfSec sec).toNat = 200 - sec.toNat / 4 :=
  (BitVec.toNat_ofNat _ _).trans (Nat.mod_eq_of_lt (by omega))

/-- Settles O20: the rate is `rateOfSec`, and the rest is arithmetic on its number. -/
theorem initFixesRateAndCapacity : Obligations.InitFixesRateAndCapacity := by
  intro s t sec hsec h
  obtain rfl : afterInit sec s = t := by simpa [exec_of_ran (.init hsec)] using h
  have hrate : (afterInit sec s).rate.toNat = 200 - sec.toNat / 4 := rateOfSec_toNat sec
  refine ⟨hrate, by omega, by omega, by omega, fun _ => by omega, ?_, ?_⟩
  · rintro rfl; rfl
  · rintro rfl; rfl

/-- Settles O22: an executed ABSORB leaves `afterAbsorb`, by whether its byte fills the block. -/
theorem absorbXorsByteAndPermutesFullBlock : Obligations.AbsorbXorsByteAndPermutesFullBlock := by
  refine fun s b => ⟨fun hf hp hpos hmax => ?_, fun hf hp => ?_, fun hf hp => ?_, fun hf => ?_⟩
  · obtain ⟨a, ha, hexec⟩ := exec_absorb_executes b hf hp hpos hmax
    refine ⟨a, ha, ?_⟩
    simp only [hexec, afterAbsorb_eq, pos_succ_eq_rate_iff hpos]
    rw [pos_succ_eq_ofNat]
  · exact exec_of_ran (.raise hf rfl (by rw [hp]; rfl))
  · exact exec_of_ran (.raise hf rfl (by rcases hp with hp | hp <;> rw [hp] <;> rfl))
  · exact exec_of_ran (.discard hf rfl rfl)

/-- Settles O23: an executed FINALIZE leaves `afterFinalize`. -/
theorem finalizePadsAndMovesCursorToRate : Obligations.FinalizePadsAndMovesCursorToRate := by
  refine fun s => ⟨fun hf hp hpos hmax => ?_, fun hf hp => ?_, fun hf hp => ?_, fun hf => ?_⟩
  · exact exec_finalize_executes hf hp hpos hmax
  · exact exec_of_ran (.raise hf rfl (by rw [hp]; rfl))
  · exact exec_of_ran (.raise hf rfl (by rcases hp with hp | hp <;> rw [hp] <;> rfl))
  · exact exec_of_ran (.discard hf rfl rfl)

/-- Settles O25: an executed SQUEEZE leaves `afterSqueeze`, by whether the cursor is at the rate. -/
theorem squeezeOutputsByteAtCursor : Obligations.SqueezeOutputsByteAtCursor := by
  refine fun s => ⟨fun hf hp hpos hrate hmax => ?_, fun hf hp => ?_, fun hf hp => ?_, fun hf => ?_⟩
  · obtain ⟨b, hb, hexec⟩ := exec_squeeze_executes hf hp hpos hrate hmax
    rw [hexec, afterSqueeze_eq]
    split
    next heq =>
      rw [permuteAtRate_of_eq (s := quiet s) heq] at hb
      exact ⟨b, hb, rfl⟩
    next hne =>
      rw [permuteAtRate_of_ne (s := quiet s) hne] at hb
      exact ⟨b, hb, by rw [pos_succ_eq_ofNat]⟩
  · exact exec_of_ran (.raise hf rfl (by rw [hp]; rfl))
  · exact exec_of_ran (.raise hf rfl (by rcases hp with hp | hp <;> rw [hp] <;> rfl))
  · exact exec_of_ran (.discard hf rfl rfl)

end Sys2Proof.Machine

/-!
PROOF. The phase table (spec/41_sponge.md R145): in the states that meet the invariant every command answers a next
state, and each way it can run there agrees with the table.
-/

namespace Sys2Proof.Machine

@[simp] theorem raised_phase (c : FaultCause) (w : CmdWord) (s : State) : (raised c w s).phase = s.phase := rfl
@[simp] theorem raised_fault (c : FaultCause) (w : CmdWord) (s : State) : (raised c w s).fault = c := rfl

@[simp] theorem afterInit_phase (sec : BitVec 10) (s : State) : (afterInit sec s).phase = .created := rfl
@[simp] theorem afterInit_fault (sec : BitVec 10) (s : State) : (afterInit sec s).fault = .noFault := rfl

@[simp] theorem afterAbsorb_phase (a : Lanes) (s : State) : (afterAbsorb a s).phase = .absorbing := rfl
@[simp] theorem afterAbsorb_fault (a : Lanes) (s : State) : (afterAbsorb a s).fault = s.fault := by simp [afterAbsorb]

@[simp] theorem afterFinalize_phase (a : Lanes) (s : State) : (afterFinalize a s).phase = .padded := rfl
@[simp] theorem afterFinalize_fault (a : Lanes) (s : State) : (afterFinalize a s).fault = s.fault := rfl

@[simp] theorem afterSqueeze_phase (b : Byte) (s : State) : (afterSqueeze b s).phase = .squeezing := rfl
@[simp] theorem afterSqueeze_fault (b : Byte) (s : State) : (afterSqueeze b s).fault = s.fault := by
  simp [afterSqueeze]

/-- Before the padding the cursor is below the rate (R148). -/
theorem cursorFits_before_finalize {s : State} (h : cursorFits s) (hp : s.phase = .created ∨ s.phase = .absorbing) :
    s.pos.toNat + 1 ≤ s.rate.toNat ∧ s.rate.toNat ≤ 200 := by
  unfold cursorFits at h
  rcases hp with hp | hp <;> rw [hp] at h
  · obtain ⟨⟨hmin, hmax⟩, hpos⟩ := h
    rw [hpos]
    exact ⟨hmin, hmax⟩
  · obtain ⟨⟨-, hmax⟩, hpos⟩ := h
    exact ⟨hpos, hmax⟩

/-- After the padding the cursor is at most the rate, and the rate is legal (R148). -/
theorem cursorFits_after_finalize {s : State} (h : cursorFits s) (hp : s.phase = .padded ∨ s.phase = .squeezing) :
    s.pos.toNat ≤ s.rate.toNat ∧ 1 ≤ s.rate.toNat ∧ s.rate.toNat ≤ 200 := by
  unfold cursorFits at h
  rcases hp with hp | hp <;> rw [hp] at h
  · obtain ⟨⟨hmin, hmax⟩, hpos⟩ := h
    rw [hpos]
    exact ⟨le_rfl, hmin, hmax⟩
  · obtain ⟨⟨hmin, hmax⟩, -, hpos⟩ := h
    exact ⟨hpos, hmin, hmax⟩

/-- A command that the phase table lets through executes: its positions lie in the state byte space (R56). -/
theorem exec_completes_of_tableCause_eq_none {s : State} {i : Instr} (hcursor : cursorFits s) (hf : s.fault = .noFault)
    (hc : tableCause s.phase i = none) : ∃ t, exec i s = .next t := by
  cases i with
  | init sec =>
    rw [tableCause_init, initCause_eq_none_iff] at hc
    exact ⟨_, exec_of_ran (.init hc)⟩
  | absorb b =>
    have hp := (tableCause_absorb_eq_none_iff _ _).mp hc
    obtain ⟨hpos, hmax⟩ := cursorFits_before_finalize hcursor hp
    obtain ⟨a, -, hexec⟩ := exec_absorb_executes b hf hp hpos hmax
    exact ⟨_, hexec⟩
  | finalize =>
    have hp := (tableCause_finalize_eq_none_iff _).mp hc
    obtain ⟨hpos, hmax⟩ := cursorFits_before_finalize hcursor hp
    obtain ⟨a, a', -, -, hexec⟩ := exec_finalize_executes hf hp hpos hmax
    exact ⟨_, hexec⟩
  | squeeze =>
    have hp := (tableCause_squeeze_eq_none_iff _).mp hc
    obtain ⟨hpos, hrate, hmax⟩ := cursorFits_after_finalize hcursor hp
    obtain ⟨b, -, hexec⟩ := exec_squeeze_executes hf hp hpos hrate hmax
    exact ⟨_, hexec⟩
  | permute => exact ⟨_, exec_of_ran .permute⟩

/-- Every command completes where the cursor and the rate fit the phase: it executes, raises its fault or is discarded
(R201). -/
theorem exec_completes {s : State} {i : Instr} (hcursor : cursorFits s) (hp : onCommandPort i = true) :
    ∃ t, exec i s = .next t := by
  by_cases hf : s.fault = .noFault
  · cases hc : tableCause s.phase i with
    | none => exact exec_completes_of_tableCause_eq_none hcursor hf hc
    | some c => exact ⟨_, exec_of_ran (.raise hf hp hc)⟩
  · cases hg : goodInit i with
    | false => exact ⟨_, exec_of_ran (.discard hf hp hg)⟩
    | true =>
      obtain ⟨sec, rfl, hsec⟩ := goodInit_iff.mp hg
      exact ⟨_, exec_of_ran (.init hsec)⟩

/-- An ILLEGAL word always completes: it raises ILLEGAL_COMMAND or is discarded (R161, R168). -/
theorem illegalCommand_eq (w : CmdWord) (s : State) :
    illegalCommand w s = .next (if s.fault = .noFault then raised .illegalCommand w s else discarded s) := by
  by_cases hf : s.fault = .noFault
  · rw [if_pos hf]
    exact guarded_raises hf
  · rw [if_neg hf]
    exact guarded_discards hf (.inl rfl)

/-- A command word that the decoder rejects is carried out as an ILLEGAL word (R87, R88). -/
theorem step_of_rejected {s : State} {w : CmdWord} {rest : List Input} {why : Reject}
    (hin : s.inputs = .word (.command w) :: rest) (hdec : decodeCommand w = .rejected why) :
    step s = illegalCommand w { s with inputs := rest } := by
  simp only [step, fetch, hin, fetchedInput, fetchedWord, hdec]

/-- Settles O28: every command completes, and each way it can run gives the table's entry. -/
theorem phaseTableIsFollowed : Obligations.PhaseTableIsFollowed := by
  refine ⟨fun s i hinv hport => ?_, fun s w rest why hin hdec => ?_⟩
  · obtain ⟨hcursor, -, -⟩ := hinv
    obtain ⟨t, hexec⟩ := exec_completes hcursor hport
    refine ⟨t, hexec, ?_⟩
    cases exec_next hexec with
    | discard hf _ hg => simp [hf, hg]
    | raise hf _ hc => simp [hf, hc]
    | @init sec hsec =>
      have hgood : goodInit (.init sec) = true := goodInit_iff.mpr ⟨sec, rfl, hsec⟩
      simp [hgood, tableCause_init, initCause_eq_none_iff.mpr hsec, nextPhase]
    | absorb hf hp => simp [hf, (tableCause_absorb_eq_none_iff _ _).mpr hp, nextPhase]
    | finalize hf hp => simp [hf, (tableCause_finalize_eq_none_iff _).mpr hp, nextPhase]
    | squeeze hf hp => simp [hf, (tableCause_squeeze_eq_none_iff _).mpr hp, nextPhase]
    | permute => cases hport
  · rw [step_of_rejected hin hdec, illegalCommand_eq]
    refine ⟨_, rfl, ?_⟩
    split
    next => exact ⟨rfl, rfl⟩
    next => rfl

end Sys2Proof.Machine

/-!
PROOF. The permutation trigger (spec/41_sponge.md R146): the count of PERMUTE events and the pulse after each way an
instruction can run.
-/

namespace Sys2Proof.Machine

@[simp] theorem discarded_perms (s : State) : (discarded s).perms = s.perms := rfl
@[simp] theorem discarded_permPulse (s : State) : (discarded s).permPulse = false := rfl

@[simp] theorem raised_perms (c : FaultCause) (w : CmdWord) (s : State) : (raised c w s).perms = s.perms := rfl
@[simp] theorem raised_permPulse (c : FaultCause) (w : CmdWord) (s : State) : (raised c w s).permPulse = false := rfl

@[simp] theorem afterInit_perms (sec : BitVec 10) (s : State) : (afterInit sec s).perms = s.perms := rfl
@[simp] theorem afterInit_permPulse (sec : BitVec 10) (s : State) : (afterInit sec s).permPulse = false := rfl

@[simp] theorem afterFinalize_perms (a : Lanes) (s : State) : (afterFinalize a s).perms = s.perms := rfl
@[simp] theorem afterFinalize_permPulse (a : Lanes) (s : State) : (afterFinalize a s).permPulse = false := rfl

theorem step_of_reset {s : State} {rest : List Input} (hin : s.inputs = .reset :: rest) :
    step s = .next (assertReset { s with inputs := rest }) := by
  simp only [step, fetch, hin, fetchedInput]

/-- Settles O36, by the ways an instruction can run: only an executed ABSORB or SQUEEZE reaches the trigger. -/
theorem permutationTriggerIsCursorAtRate : Obligations.PermutationTriggerIsCursorAtRate := by
  refine ⟨fun i s t hport hexec => ?_, fun s t rest hin hstep => ?_⟩
  · cases exec_next hexec with
    | discard hf => simp [hf]
    | raise _ _ hc => simp [hc]
    | init => simp
    | @absorb b a hf hp =>
      have hc := (tableCause_absorb_eq_none_iff s.phase b).mpr hp
      by_cases hfull : s.pos + 1#8 = s.rate <;> simp [afterAbsorb_eq, hf, hc, hfull]
    | finalize => simp
    | squeeze hf hp =>
      have hc := (tableCause_squeeze_eq_none_iff s.phase).mpr hp
      by_cases hrate : s.pos = s.rate <;> simp [afterSqueeze_eq, hf, hc, hrate]
    | permute => cases hport
  · obtain rfl : assertReset { s with inputs := rest } = t := by simpa [step_of_reset hin] using hstep
    exact assertReset_permPulse _

end Sys2Proof.Machine

/-!
PROOF. Faults (spec/60_exceptions.md R161 to R168): a command that the phase table gives a fault raises it, the sticky
fault discards all but a good INIT, and the words that no row of the opcode map selects are carried out as ILLEGAL.
-/

namespace Sys2Proof.Machine

/- Commands. -/

/-- The phase table gives faults to the commands of the command port only (R145). -/
theorem onCommandPort_of_tableCause {p : Phase} {i : Instr} {c : FaultCause} (hc : tableCause p i = some c) :
    onCommandPort i = true := by
  cases i with
  | permute => cases p <;> cases hc
  | _ => rfl

/-- Settles O26: a command with a cause in the phase table raises it. -/
theorem faultEntryChangesOnlyFaultRegisters : Obligations.FaultEntryChangesOnlyFaultRegisters :=
  fun _ _ _ hf hc => exec_of_ran (.raise hf (onCommandPort_of_tableCause hc) hc)

/- Words that are no command. -/

/-- The rows of the opcode map as conditions on the word (R86). -/
theorem commandWf_iff (w : CmdWord) :
    commandWf w = true ↔ w &&& 0xFC00 = 0x1000 ∨ w &&& 0xFF00 = 0x2000 ∨ w = 0x3000 ∨ w = 0x4000 := by
  have hall : w &&& 0xFFFF = w := BitVec.and_allOnes
  simp only [commandWf, opcodeMap, OpRow.selects, List.any_cons, List.any_nil, Bool.or_false, Bool.or_eq_true,
    beq_iff_eq, hall]

/-- A word that no row of the map selects is rejected by the decoder (R87, R88). -/
theorem decodeCommand_of_not_commandWf {w : CmdWord} (hwf : commandWf w = false) :
    decodeCommand w = .rejected (rejectReason w) := by
  rw [← Bool.not_eq_true, commandWf_iff] at hwf
  push Not at hwf
  obtain ⟨hinit, habsorb, hfinalize, hsqueeze⟩ := hwf
  rw [decodeCommand, if_neg hinit, if_neg habsorb, if_neg hfinalize, if_neg hsqueeze]

/-- A mask that covers a whole field fixes what the field holds. -/
theorem extractLsb'_eq_of_and_eq {w mask value : CmdWord} {start len : Nat} (h : w &&& mask = value)
    (hmask : mask.extractLsb' start len = BitVec.allOnes len) :
    w.extractLsb' start len = value.extractLsb' start len := by
  rw [← h, BitVec.extractLsb'_and, hmask, BitVec.and_allOnes]

/-- In a word that a row of the map selects the opcode is 1 to 4 and the reserved bits of its format are 0 (R81). -/
theorem fields_of_commandWf {w : CmdWord} (hwf : commandWf w = true) :
    (opField w = 1 ∧ w.extractLsb' 10 2 = 0) ∨ (opField w = 2 ∧ w.extractLsb' 8 4 = 0) ∨
      ((opField w = 3 ∨ opField w = 4) ∧ w.extractLsb' 0 12 = 0) := by
  rcases (commandWf_iff w).mp hwf with hinit | habsorb | rfl | rfl
  · exact .inl ⟨extractLsb'_eq_of_and_eq hinit rfl, extractLsb'_eq_of_and_eq hinit rfl⟩
  · exact .inr (.inl ⟨extractLsb'_eq_of_and_eq habsorb rfl, extractLsb'_eq_of_and_eq habsorb rfl⟩)
  · exact .inr (.inr ⟨.inl rfl, rfl⟩)
  · exact .inr (.inr ⟨.inr rfl, rfl⟩)

/-- A word that no row of the map selects raises ILLEGAL_COMMAND, or is discarded where a fault is recorded. -/
theorem step_of_not_commandWf {s : State} {w : CmdWord} {rest : List Input}
    (hin : s.inputs = .word (.command w) :: rest) (hwf : commandWf w = false) :
    step s = .next (if s.fault = .noFault then raised .illegalCommand w { s with inputs := rest }
      else discarded { s with inputs := rest }) := by
  rw [step_of_rejected hin (decodeCommand_of_not_commandWf hwf), illegalCommand_eq]

/-- Settles O2: the opcode and the reserved bits of such a word are those of no row of the map. -/
theorem illegalWordRaisesIllegalCommand : Obligations.IllegalWordRaisesIllegalCommand := by
  refine fun s w rest hin hillegal => step_of_not_commandWf hin (Bool.eq_false_iff.mpr fun hwf => ?_)
  rcases fields_of_commandWf hwf with ⟨hop, hreserved⟩ | ⟨hop, hreserved⟩ | ⟨hop | hop, hreserved⟩ <;>
    simp [hop, hreserved] at hillegal

/-- Settles O27: a command but a good INIT is discarded, and so is a word that no row of the map selects. -/
theorem stickyFaultDiscardsCommands : Obligations.StickyFaultDiscardsCommands := by
  refine ⟨fun s i hf hport hgood => exec_of_ran (.discard hf hport hgood), fun s w rest hf hin hwf => ?_⟩
  rw [step_of_not_commandWf hin hwf, if_neg hf]

end Sys2Proof.Machine

/-!
PROOF. The decoder and the encoder (spec/30_encoding.md R81 to R88): each row of the opcode map as a condition on the
number of the word, and the decoder's answer under each; from there the round trip, and the step that runs an encoded
instruction.
-/

namespace Sys2Proof.Machine

/- The rows of the map in numbers. -/

/-- A mask of all bits from `k` up keeps what is left after a shift down and up again. -/
theorem and_allOnes_shiftLeft {n : Nat} (w : BitVec n) (k : Nat) :
    w &&& (BitVec.allOnes n <<< k) = (w >>> k) <<< k := by
  refine BitVec.eq_of_getLsbD_eq fun i hi => ?_
  by_cases hlow : i < k
  · simp [hlow]
  · have hbit : k + (i - k) = i := by omega
    simp [hi, hlow, hbit]

/-- INIT's row: the six bits above `sec` are 000100 (R86). -/
theorem init_row_iff (w : CmdWord) : w &&& 0xFC00 = 0x1000 ↔ w.toNat / 1024 = 4 := by
  have hmask := and_allOnes_shiftLeft w 10
  rw [show (0xFC00 : CmdWord) = BitVec.allOnes 16 <<< 10 from rfl, hmask]
  bv_omega

/-- ABSORB's row: the eight bits above `byte` are 00100000 (R86). -/
theorem absorb_row_iff (w : CmdWord) : w &&& 0xFF00 = 0x2000 ↔ w.toNat / 256 = 32 := by
  have hmask := and_allOnes_shiftLeft w 8
  rw [show (0xFF00 : CmdWord) = BitVec.allOnes 16 <<< 8 from rfl, hmask]
  bv_omega

/- The fields in numbers. -/

theorem opField_toNat (w : CmdWord) : (opField w).toNat = w.toNat / 4096 := by
  simp [opField, Nat.shiftRight_eq_div_pow]; omega

theorem secField_toNat (w : CmdWord) : (secField w).toNat = w.toNat % 1024 := by simp [secField]

theorem byteField_toNat (w : CmdWord) : (byteField w).toNat = w.toNat % 256 := by simp [byteField]

/-- The opcode bits of INIT's word lie above its operand, so the OR of the two is their sum (R91). -/
theorem initWord_toNat (sec : BitVec 10) : (initWord sec).toNat = 4096 + sec.toNat := by
  have hsum := Nat.two_pow_add_eq_or_of_lt (i := 12) (b := sec.toNat) (by omega) 1
  rw [initWord, BitVec.toNat_or, BitVec.toNat_setWidth_of_le (by decide)]
  exact hsum.symm

/-- The opcode bits of ABSORB's word lie above its operand, so the OR of the two is their sum (R91). -/
theorem absorbWord_toNat (b : Byte) : (absorbWord b).toNat = 8192 + b.toNat := by
  have hsum := Nat.two_pow_add_eq_or_of_lt (i := 12) (b := b.toNat) (by omega) 2
  rw [absorbWord, BitVec.toNat_or, BitVec.toNat_setWidth_of_le (by decide)]
  exact hsum.symm

/- The decoder's answers. -/

theorem decodeCommand_of_init_row {w : CmdWord} (h : w.toNat / 1024 = 4) :
    decodeCommand w = .instr (.init (secField w)) := by
  rw [decodeCommand, if_pos ((init_row_iff w).mpr h)]

theorem decodeCommand_of_absorb_row {w : CmdWord} (h : w.toNat / 256 = 32) :
    decodeCommand w = .instr (.absorb (byteField w)) := by
  rw [decodeCommand, if_neg (by rw [init_row_iff]; omega), if_pos ((absorb_row_iff w).mpr h)]

/-- Everything the command-port decoder can answer, by the row that selects the word. -/
inductive CommandDecodes (w : CmdWord) : Decoded → Prop where
  | init (h : w.toNat / 1024 = 4) : CommandDecodes w (.instr (.init (secField w)))
  | absorb (h : w.toNat / 256 = 32) : CommandDecodes w (.instr (.absorb (byteField w)))
  | finalize (h : w = 0x3000) : CommandDecodes w (.instr .finalize)
  | squeeze (h : w = 0x4000) : CommandDecodes w (.instr .squeeze)
  | rejected (h : commandWf w = false) : CommandDecodes w (.rejected (rejectReason w))

theorem commandDecodes (w : CmdWord) : CommandDecodes w (decodeCommand w) := by
  cases hwf : commandWf w with
  | false => exact decodeCommand_of_not_commandWf hwf ▸ .rejected hwf
  | true =>
    rcases (commandWf_iff w).mp hwf with hinit | habsorb | rfl | rfl
    · rw [init_row_iff] at hinit
      exact decodeCommand_of_init_row hinit ▸ .init hinit
    · rw [absorb_row_iff] at habsorb
      exact decodeCommand_of_absorb_row habsorb ▸ .absorb habsorb
    · exact .finalize rfl
    · exact .squeeze rfl

/-- The opcodes 1 to 4 are the legal ones (R86, R88). -/
theorem rejectReason_eq (w : CmdWord) : rejectReason w =
    if 1 ≤ w.toNat / 4096 ∧ w.toNat / 4096 ≤ 4 then .reservedBitSet else .illegalOpcode := by
  refine if_congr ?_ rfl rfl
  rw [← opField_toNat]
  bv_omega

/-- Settles O6, by the row that selects the word. -/
theorem decoderFollowsOpcodeMap : Obligations.DecoderFollowsOpcodeMap := by
  intro w
  have hdec := commandDecodes w
  generalize decodeCommand w = d at hdec ⊢
  cases hdec with
  | init h => exact ⟨h, secField_toNat w⟩
  | absorb h => exact ⟨h, byteField_toNat w⟩
  | finalize h => rw [h]; rfl
  | squeeze h => rw [h]; rfl
  | rejected h =>
    by_cases hop : 1 ≤ w.toNat / 4096 ∧ w.toNat / 4096 ≤ 4
    · rw [rejectReason_eq, if_pos hop]
      exact ⟨hop.1, hop.2, h⟩
    · rw [rejectReason_eq, if_neg hop]
      exact ⟨by omega, h⟩

/- The round trip. -/

theorem decode_encode (i : Instr) : decode (encode i) = .instr i := by
  cases i with
  | init sec =>
    have hsec : secField (initWord sec) = sec :=
      BitVec.eq_of_toNat_eq (by rw [secField_toNat, initWord_toNat]; omega)
    exact (decodeCommand_of_init_row (by rw [initWord_toNat]; omega)).trans (by rw [hsec])
  | absorb b =>
    have hbyte : byteField (absorbWord b) = b :=
      BitVec.eq_of_toNat_eq (by rw [byteField_toNat, absorbWord_toNat]; omega)
    exact (decodeCommand_of_absorb_row (by rw [absorbWord_toNat]; omega)).trans (by rw [hbyte])
  | finalize => rfl
  | squeeze => rfl
  | permute => rfl

theorem encode_of_decodeCommand {w : CmdWord} {i : Instr} (h : decodeCommand w = .instr i) :
    encode i = .command w := by
  have hdec := commandDecodes w
  rw [h] at hdec
  cases hdec with
  | init hrow =>
    refine congrArg PortWord.command (BitVec.eq_of_toNat_eq ?_)
    rw [initWord_toNat, secField_toNat]
    omega
  | absorb hrow =>
    refine congrArg PortWord.command (BitVec.eq_of_toNat_eq ?_)
    rw [absorbWord_toNat, byteField_toNat]
    omega
  | finalize hw => rw [hw]; rfl
  | squeeze hw => rw [hw]; rfl

theorem encode_of_decodeEngine {req : EngineWord} {i : Instr} (h : decodeEngine req = .instr i) :
    encode i = .engine req := by
  unfold decodeEngine at h
  split at h
  next hreq => cases h; rw [hreq]; rfl
  next => cases h

theorem encode_of_decode {p : PortWord} {i : Instr} (h : decode p = .instr i) : encode i = p := by
  cases p with
  | command w => exact encode_of_decodeCommand h
  | engine req => exact encode_of_decodeEngine h

/-- Settles O5: the decoder takes every encoded word apart into the operand it was made of, and a word that it takes
apart is the one its operand gives back. -/
theorem decodeAndEncodeAgree : Obligations.DecodeAndEncodeAgree :=
  fun _ i => ⟨encode_of_decode, fun h => h ▸ decode_encode i⟩

/-- Settles O4, each word by running the decoder. -/
theorem decoderReadsSpecWords : Obligations.DecoderReadsSpecWords := by
  unfold Obligations.DecoderReadsSpecWords
  decide

/- The step that takes a word. -/

theorem fetchedWord_of_decode {p : PortWord} {i : Instr} (h : decode p = .instr i) : fetchedWord p = .instr i := by
  cases p with
  | command w => rw [fetchedWord, show decodeCommand w = .instr i from h]
  | engine req => rw [fetchedWord, show decodeEngine req = .instr i from h]

/-- Settles O1: such a word is fetched as its instruction. -/
theorem stepRunsDecodedInstruction : Obligations.StepRunsDecodedInstruction := by
  intro s p rest i hin hdec
  simp only [step, fetch, hin, fetchedInput, fetchedWord_of_decode hdec]

/-- Settles O3: an empty list and the engine-port word 0 both fetch nothing. -/
theorem stepWithoutRequestChangesNothing : Obligations.StepWithoutRequestChangesNothing := by
  refine ⟨fun s hin => ?_, fun s rest hin => ?_⟩
  · simp only [step, fetch, hin]
    rfl
  · have hnothing : fetchedInput (.word (.engine 0)) = .nothing := rfl
    simp only [step, fetch, hin, hnothing]
    rfl

end Sys2Proof.Machine

/-!
PROOF. The registers after each way an instruction can run (spec/10_state.md R20 to R29): the fields that the sections
before have no rule for, and from them the frame of the instructions.
-/

namespace Sys2Proof.Machine

@[simp] theorem discarded_rate (s : State) : (discarded s).rate = s.rate := rfl
@[simp] theorem discarded_inputs (s : State) : (discarded s).inputs = s.inputs := rfl
@[simp] theorem discarded_freeCount (s : State) : (discarded s).freeCount = s.freeCount := rfl

@[simp] theorem raised_rate (c : FaultCause) (w : CmdWord) (s : State) : (raised c w s).rate = s.rate := rfl
@[simp] theorem raised_fcmd (c : FaultCause) (w : CmdWord) (s : State) : (raised c w s).fcmd = w := rfl
@[simp] theorem raised_inputs (c : FaultCause) (w : CmdWord) (s : State) : (raised c w s).inputs = s.inputs := rfl
@[simp] theorem raised_everFaulted (c : FaultCause) (w : CmdWord) (s : State) : (raised c w s).everFaulted = true := rfl
@[simp] theorem raised_freeCount (c : FaultCause) (w : CmdWord) (s : State) : (raised c w s).freeCount = s.freeCount :=
  rfl

@[simp] theorem afterInit_rate (sec : BitVec 10) (s : State) : (afterInit sec s).rate = rateOfSec sec := rfl
@[simp] theorem afterInit_pos (sec : BitVec 10) (s : State) : (afterInit sec s).pos = 0 := rfl
@[simp] theorem afterInit_inputs (sec : BitVec 10) (s : State) : (afterInit sec s).inputs = s.inputs := rfl
@[simp] theorem afterInit_everFaulted (sec : BitVec 10) (s : State) :
    (afterInit sec s).everFaulted = s.everFaulted := rfl
@[simp] theorem afterInit_freeCount (sec : BitVec 10) (s : State) : (afterInit sec s).freeCount = s.freeCount := rfl

@[simp] theorem afterAbsorb_rate (a : Lanes) (s : State) : (afterAbsorb a s).rate = s.rate := by simp [afterAbsorb]
@[simp] theorem afterAbsorb_fcmd (a : Lanes) (s : State) : (afterAbsorb a s).fcmd = s.fcmd := by simp [afterAbsorb]
@[simp] theorem afterAbsorb_inputs (a : Lanes) (s : State) : (afterAbsorb a s).inputs = s.inputs := by
  simp [afterAbsorb]
@[simp] theorem afterAbsorb_everFaulted (a : Lanes) (s : State) : (afterAbsorb a s).everFaulted = s.everFaulted := by
  simp [afterAbsorb]
@[simp] theorem afterAbsorb_freeCount (a : Lanes) (s : State) : (afterAbsorb a s).freeCount = s.freeCount := by
  simp [afterAbsorb]

@[simp] theorem afterFinalize_lanes (a : Lanes) (s : State) : (afterFinalize a s).lanes = a := rfl
@[simp] theorem afterFinalize_rate (a : Lanes) (s : State) : (afterFinalize a s).rate = s.rate := rfl
@[simp] theorem afterFinalize_fcmd (a : Lanes) (s : State) : (afterFinalize a s).fcmd = s.fcmd := rfl
@[simp] theorem afterFinalize_inputs (a : Lanes) (s : State) : (afterFinalize a s).inputs = s.inputs := rfl
@[simp] theorem afterFinalize_freeCount (a : Lanes) (s : State) : (afterFinalize a s).freeCount = s.freeCount := rfl

@[simp] theorem afterSqueeze_rate (b : Byte) (s : State) : (afterSqueeze b s).rate = s.rate := by simp [afterSqueeze]
@[simp] theorem afterSqueeze_fcmd (b : Byte) (s : State) : (afterSqueeze b s).fcmd = s.fcmd := by simp [afterSqueeze]
@[simp] theorem afterSqueeze_inputs (b : Byte) (s : State) : (afterSqueeze b s).inputs = s.inputs := by
  simp [afterSqueeze]
@[simp] theorem afterSqueeze_everFaulted (b : Byte) (s : State) : (afterSqueeze b s).everFaulted = s.everFaulted := by
  simp [afterSqueeze]
@[simp] theorem afterSqueeze_freeCount (b : Byte) (s : State) : (afterSqueeze b s).freeCount = s.freeCount := by
  simp [afterSqueeze]

/- ABSORB and SQUEEZE by the count of permutations. -/

/-- ABSORB counts one PERMUTE event for each pulse. -/
theorem afterAbsorb_perms (a : Lanes) (s : State) :
    (afterAbsorb a s).perms = s.perms + (afterAbsorb a s).permPulse.toNat := by
  rw [afterAbsorb_eq]
  split <;> rfl

/-- SQUEEZE counts one PERMUTE event for each pulse. -/
theorem afterSqueeze_perms (b : Byte) (s : State) :
    (afterSqueeze b s).perms = s.perms + (afterSqueeze b s).permPulse.toNat := by
  rw [afterSqueeze_eq]
  split <;> rfl

/-- An ABSORB that runs no permutation leaves the lanes with the byte XORed in and advances the cursor. -/
theorem afterAbsorb_of_perms_eq {a : Lanes} {s : State} (h : (afterAbsorb a s).perms = s.perms) :
    (afterAbsorb a s).lanes = a ∧ (afterAbsorb a s).pos = s.pos + 1 := by
  rw [afterAbsorb_eq] at h ⊢
  split at h
  next => simp at h
  next hbelow => rw [if_neg hbelow]; exact ⟨rfl, rfl⟩

/-- A SQUEEZE runs no permutation exactly when the cursor is not at the rate. -/
theorem pos_ne_rate_of_afterSqueeze_perms_eq {b : Byte} {s : State} (h : (afterSqueeze b s).perms = s.perms) :
    s.pos ≠ s.rate := by
  intro hrate
  rw [afterSqueeze_eq, if_pos hrate] at h
  simp at h

/-- A SQUEEZE that runs no permutation leaves the lanes. -/
theorem afterSqueeze_lanes_of_perms_eq {b : Byte} {s : State} (h : (afterSqueeze b s).perms = s.perms) :
    (afterSqueeze b s).lanes = s.lanes := by
  rw [afterSqueeze_eq, if_neg (pos_ne_rate_of_afterSqueeze_perms_eq h)]

/- What every instruction leaves unchanged. -/

theorem exec_inputs_eq {i : Instr} {s t : State} (h : exec i s = .next t) : t.inputs = s.inputs := by
  cases exec_next h <;> simp

theorem exec_freeCount_eq {i : Instr} {s t : State} (h : exec i s = .next t) : t.freeCount = s.freeCount := by
  cases exec_next h <;> simp

theorem exec_rate_eq {i : Instr} {s t : State} (h : exec i s = .next t) (hi : ∀ sec, i ≠ .init sec) :
    t.rate = s.rate := by
  cases exec_next h with
  | @init sec => exact absurd rfl (hi sec)
  | _ => simp

/-- What an instruction outputs is what it adds to the record, and it counts one PERMUTE event for each pulse. -/
theorem exec_record {i : Instr} {s t : State} (h : exec i s = .next t) :
    t.outputs = s.outputs ++ t.outByte.toList ∧ t.perms = s.perms + t.permPulse.toNat := by
  cases exec_next h with
  | absorb => exact ⟨by simp, afterAbsorb_perms _ _⟩
  | squeeze => exact ⟨by simp, afterSqueeze_perms _ _⟩
  | _ => simp

/-- No command but SQUEEZE outputs a byte. -/
theorem exec_output_eq {i : Instr} {s t : State} (h : exec i s = .next t) (hi : i ≠ .squeeze) :
    t.outputs = s.outputs ∧ t.outByte = none := by
  cases exec_next h with
  | squeeze => exact absurd rfl hi
  | _ => simp

/-- INIT and FINALIZE run no permutation, whether they execute or not. -/
theorem exec_perms_eq {i : Instr} {s t : State} (h : exec i s = .next t) (habsorb : ∀ b, i ≠ .absorb b)
    (hsqueeze : i ≠ .squeeze) (hpermute : i ≠ .permute) : t.perms = s.perms ∧ t.permPulse = false := by
  cases exec_next h with
  | @absorb b => exact absurd rfl (habsorb b)
  | squeeze => exact absurd rfl hsqueeze
  | permute => exact absurd rfl hpermute
  | _ => simp

/-- Settles O34, register by register. -/
theorem registersChangeOnlyByTheirInstructions : Obligations.RegistersChangeOnlyByTheirInstructions := by
  refine fun i s t h =>
    ⟨exec_inputs_eq h, exec_freeCount_eq h, exec_rate_eq h, exec_output_eq h, exec_perms_eq h, ?_⟩
  rintro rfl
  obtain rfl := execPermute_next h
  exact ⟨rfl, rfl, rfl, rfl, rfl⟩

/-- Settles O38: a step that runs no instruction shows no byte and no pulse and keeps the record. -/
theorem recordFollowsPorts : Obligations.RecordFollowsPorts := by
  intro s t h
  obtain ⟨u, hu, h⟩ := step_next h
  have houtputs : u.outputs = s.outputs := by rw [hu]
  have hperms : u.perms = s.perms := by rw [hu]
  rw [← houtputs, ← hperms]
  rcases h with ⟨-, rfl⟩ | ⟨-, rfl⟩ | ⟨w, -, h⟩ | ⟨i, -, h⟩
  · simp
  · simp
  · rcases illegalCommand_next h with ⟨-, rfl⟩ | ⟨-, rfl⟩ <;> simp
  · exact exec_record h

/-- Every step takes the host's next input and no other. -/
theorem step_inputs_eq {s t : State} (h : step s = .next t) : t.inputs = s.inputs.tail := by
  obtain ⟨u, hu, h⟩ := step_next h
  have hinputs : u.inputs = s.inputs.tail := by rw [hu]
  rw [← hinputs]
  rcases h with ⟨-, rfl⟩ | ⟨-, rfl⟩ | ⟨w, -, h⟩ | ⟨i, -, h⟩
  · simp
  · simp
  · rcases illegalCommand_next h with ⟨-, rfl⟩ | ⟨-, rfl⟩ <;> simp
  · exact exec_inputs_eq h

end Sys2Proof.Machine

/-!
PROOF. The invariant (spec/41_sponge.md R148; spec/60_exceptions.md R160 to R168): what each way an instruction can run
keeps of it, and from there every step.
-/

namespace Sys2Proof.Machine

/- The clauses of the invariant. -/

theorem State.Inv.fcmd_eq_zero {s : State} (h : s.Inv) (hf : s.fault = .noFault) : s.fcmd = 0 := by
  obtain ⟨-, -, hrecord⟩ := h
  rwa [faultRecorded, hf] at hrecord

/-- Without a fault only the ranges are left of the invariant. -/
theorem State.Inv.of_noFault {s : State} (hcursor : cursorFits s) (hf : s.fault = .noFault) (hw : s.fcmd = 0) :
    s.Inv := by
  refine ⟨hcursor, ?_, ?_⟩
  · simp only [faultFits, hf]
  · simpa only [faultRecorded, hf] using hw

/-- The phase table gives a phase only causes that fit it. -/
theorem faultFits_raised {s : State} {i : Instr} {c : FaultCause} (w : CmdWord) (hc : tableCause s.phase i = some c) :
    faultFits (raised c w s) := by
  simp only [faultFits, raised_fault, raised_phase]
  cases i with
  | init sec =>
    rw [tableCause_init, initCause, ite_eq_iff] at hc
    rcases hc with ⟨-, hc⟩ | ⟨-, hc⟩ <;> cases hc
    trivial
  | _ => cases hp : s.phase <;> rw [hp] at hc <;> cases hc <;> simp

/-- The command's word raises the cause that the phase table gives it. -/
theorem faultRecorded_raised {s : State} {i : Instr} {c : FaultCause} (hc : tableCause s.phase i = some c) :
    faultRecorded (raised c (commandWord i) s) := by
  simp only [faultRecorded, raised_fault, raised_fcmd, raised_everFaulted, true_and]
  cases i with
  | init sec =>
    rw [tableCause_init, initCause, ite_eq_iff] at hc
    obtain ⟨hsec, hc⟩ | ⟨-, hc⟩ := hc <;> cases hc
    exact ⟨sec, rfl, by omega⟩
  | absorb b =>
    have hword : commandWord (.absorb b) = absorbWord b := rfl
    cases hp : s.phase <;> rw [hp] at hc <;> cases hc <;> simp [hword]
  | finalize =>
    have hword : commandWord .finalize = finalizeWord := rfl
    cases hp : s.phase <;> rw [hp] at hc <;> cases hc <;> simp [hword]
  | squeeze =>
    have hword : commandWord .squeeze = squeezeWord := rfl
    cases hp : s.phase <;> rw [hp] at hc <;> cases hc <;> simp [hword]
  | permute => cases hp : s.phase <;> rw [hp] at hc <;> cases hc

/- The ranges after each command that executes. -/

theorem cursorFits_afterInit {sec : BitVec 10} (s : State) (hsec : sec.toNat ≤ 799) :
    cursorFits (afterInit sec s) := by
  have hrate := rateOfSec_toNat sec
  simp only [cursorFits, rateOk, Config.rateMax, afterInit_phase, afterInit_rate, afterInit_pos]
  exact ⟨by omega, trivial⟩

/-- An executed ABSORB leaves the cursor below the rate: it advances by one, and returns to 0 where that is the rate. -/
theorem cursorFits_afterAbsorb (a : Lanes) {s : State} (hpos : s.pos.toNat + 1 ≤ s.rate.toNat)
    (hmax : s.rate.toNat ≤ 200) : cursorFits (afterAbsorb a s) := by
  have hfull := pos_succ_eq_rate_iff hpos
  have hrate : 1 ≤ s.rate.toNat := by omega
  rw [afterAbsorb_eq]
  split
  next => exact ⟨⟨hrate, hmax⟩, hrate⟩
  next hbelow =>
    refine ⟨⟨hrate, hmax⟩, ?_⟩
    simp only
    bv_omega

theorem cursorFits_afterFinalize (a : Lanes) {s : State} (hrate : 1 ≤ s.rate.toNat) (hmax : s.rate.toNat ≤ 200) :
    cursorFits (afterFinalize a s) := ⟨⟨hrate, hmax⟩, rfl⟩

/-- An executed SQUEEZE leaves the cursor one above the position it read, which is below the rate. -/
theorem cursorFits_afterSqueeze (b : Byte) {s : State} (hpos : s.pos.toNat ≤ s.rate.toNat) (hrate : 1 ≤ s.rate.toNat)
    (hmax : s.rate.toNat ≤ 200) : cursorFits (afterSqueeze b s) := by
  rw [afterSqueeze_eq]
  split
  next => exact ⟨⟨hrate, hmax⟩, le_rfl, hrate⟩
  next hbelow =>
    refine ⟨⟨hrate, hmax⟩, ?_⟩
    simp only
    bv_omega

/- The invariant is kept. -/

/-- Raising a fault leaves the ranges, so what is left is that the cause fits. -/
theorem inv_raised {s : State} {i : Instr} {c : FaultCause} (h : s.Inv) (hc : tableCause s.phase i = some c) :
    (raised c (commandWord i) s).Inv := by
  obtain ⟨hcursor, -, -⟩ := h
  exact ⟨hcursor, faultFits_raised _ hc, faultRecorded_raised hc⟩

theorem inv_exec {i : Instr} {s t : State} (h : s.Inv) (hexec : exec i s = .next t) : t.Inv := by
  have hcursor := h.1
  cases exec_next hexec with
  | discard => exact h
  | raise _ _ hc => exact inv_raised h hc
  | init hsec => exact .of_noFault (cursorFits_afterInit s hsec) rfl rfl
  | absorb hf hp =>
    obtain ⟨hpos, hmax⟩ := cursorFits_before_finalize hcursor hp
    refine .of_noFault (cursorFits_afterAbsorb _ hpos hmax) ?_ ?_
    · rw [afterAbsorb_fault, hf]
    · rw [afterAbsorb_fcmd, h.fcmd_eq_zero hf]
  | finalize hf hp =>
    obtain ⟨hpos, hmax⟩ := cursorFits_before_finalize hcursor hp
    refine .of_noFault (cursorFits_afterFinalize _ (by omega) hmax) ?_ ?_
    · rw [afterFinalize_fault, hf]
    · rw [afterFinalize_fcmd, h.fcmd_eq_zero hf]
  | squeeze hf hp =>
    obtain ⟨hpos, hrate, hmax⟩ := cursorFits_after_finalize hcursor hp
    refine .of_noFault (cursorFits_afterSqueeze _ hpos hrate hmax) ?_ ?_
    · rw [afterSqueeze_fault, hf]
    · rw [afterSqueeze_fcmd, h.fcmd_eq_zero hf]
  | permute => exact h

theorem inv_illegalCommand {w : CmdWord} {s t : State} (h : s.Inv) (hwf : commandWf w = false)
    (hill : illegalCommand w s = .next t) : t.Inv := by
  rcases illegalCommand_next hill with ⟨-, rfl⟩ | ⟨-, rfl⟩
  · exact h
  · exact ⟨h.1, trivial, rfl, hwf⟩

/-- A word is fetched as ILLEGAL only where no row of the opcode map selects it (R87, R88). -/
theorem not_commandWf_of_fetchedInput {x : Input} {w : CmdWord} (h : fetchedInput x = .illegal w) :
    commandWf w = false := by
  cases x with
  | word p =>
    cases p with
    | command v =>
      have hdec := commandDecodes v
      simp only [fetchedInput, fetchedWord] at h
      generalize decodeCommand v = d at hdec h
      cases hdec <;> cases h
      assumption
    | engine req =>
      simp only [fetchedInput, fetchedWord] at h
      split at h <;> cases h
  | reset => cases h
  | resetDuring p => cases h

theorem not_commandWf_of_fetch {s : State} {w : CmdWord} (h : (fetch s).1 = .illegal w) : commandWf w = false := by
  unfold fetch at h
  split at h
  next => cases h
  next => exact not_commandWf_of_fetchedInput h

/-- After reset the block is in IDLE with no fault, where the cursor and the rate have no range to keep. -/
theorem inv_assertReset (s : State) : (assertReset s).Inv := .of_noFault trivial rfl rfl

/-- Settles O39, by what the step fetches. -/
theorem invariantKeptByEveryStep : Obligations.InvariantKeptByEveryStep := by
  intro s t h hstep
  obtain ⟨u, hu, hstep⟩ := step_next hstep
  have h : u.Inv := hu ▸ h
  rcases hstep with ⟨-, rfl⟩ | ⟨-, rfl⟩ | ⟨w, hw, hill⟩ | ⟨i, -, hexec⟩
  · exact h
  · exact inv_assertReset u
  · exact inv_illegalCommand h (not_commandWf_of_fetch hw) hill
  · exact inv_exec h hexec

/-- Settles O40: the reset state is in IDLE with no fault. -/
theorem invariantHoldsAtReset : Obligations.InvariantHoldsAtReset := .of_noFault trivial rfl rfl

/-- PERMUTE completes in every state, a command where the cursor and the rate fit the phase. -/
theorem exec_completes_of_cursorFits (i : Instr) {s : State} (hcursor : cursorFits s) : ∃ t, exec i s = .next t := by
  cases hport : onCommandPort i with
  | true => exact exec_completes hcursor hport
  | false =>
    cases i with
    | permute => exact ⟨_, exec_of_ran .permute⟩
    | _ => cases hport

/-- Settles O41: reset and the idle step always answer, an ILLEGAL word is recorded or discarded, and every instruction
completes. -/
theorem everyStepCompletes : Obligations.EveryStepCompletes := by
  rintro s ⟨hcursor, -, -⟩
  have hcursor : cursorFits (fetch s).2 := by rw [fetch_state]; exact hcursor
  unfold step
  split <;> rename_i hf <;> rw [hf] at hcursor
  · exact ⟨_, rfl⟩
  · exact ⟨_, rfl⟩
  · exact ⟨_, illegalCommand_eq _ _⟩
  · exact exec_completes_of_cursorFits _ hcursor

/- The fault record (R168). -/

/-- A step that answers a next state either marks the record that some fault occurred, or keeps it and records no new
fault. -/
def RecordKept (s t : State) : Prop :=
  t.everFaulted = true ∨ (t.everFaulted = s.everFaulted ∧ (t.fault = s.fault ∨ t.fault = .noFault))

theorem recordKept_exec {i : Instr} {s t : State} (h : exec i s = .next t) : RecordKept s t := by
  cases exec_next h with
  | raise => exact .inl rfl
  | init => exact .inr ⟨rfl, .inr rfl⟩
  | absorb => exact .inr ⟨afterAbsorb_everFaulted _ _, .inl (afterAbsorb_fault _ _)⟩
  | squeeze => exact .inr ⟨afterSqueeze_everFaulted _ _, .inl (afterSqueeze_fault _ _)⟩
  | discard => exact .inr ⟨rfl, .inl rfl⟩
  | finalize => exact .inr ⟨rfl, .inl rfl⟩
  | permute => exact .inr ⟨rfl, .inl rfl⟩

theorem recordKept_step {s t : State} (h : step s = .next t) : RecordKept s t := by
  obtain ⟨u, hu, h⟩ := step_next h
  suffices hkept : RecordKept u t by rwa [hu] at hkept
  rcases h with ⟨-, rfl⟩ | ⟨-, rfl⟩ | ⟨w, -, h⟩ | ⟨i, -, h⟩
  · exact .inr ⟨rfl, .inl rfl⟩
  · exact .inr ⟨rfl, .inr rfl⟩
  · rcases illegalCommand_next h with ⟨-, rfl⟩ | ⟨-, rfl⟩
    · exact .inr ⟨rfl, .inl rfl⟩
    · exact .inl rfl
  · exact recordKept_exec h

/-- Settles O29: a step that does not mark the record keeps it, and then it has recorded no new fault. -/
theorem faultRecordIsNeverCleared : Obligations.FaultRecordIsNeverCleared := by
  intro s t h
  rcases recordKept_step h with hmarked | ⟨hkept, hfault⟩
  · exact ⟨fun _ => hmarked, fun _ _ => hmarked⟩
  · refine ⟨fun hever => hkept.trans hever, fun hnone hsome => absurd ?_ hsome⟩
    rcases hfault with hfault | hfault
    · rw [hfault, hnone]
    · exact hfault

/- The lanes of a fresh context (R148). -/

/-- No instruction but INIT makes a fresh context, and in a fresh context the lanes are stored to by leaving CREATED
only; the engine port alone could change them there. -/
theorem freshIsZero_exec {i : Instr} {s t : State} (hfresh : freshIsZero s) (hport : onCommandPort i = true)
    (h : exec i s = .next t) : freshIsZero t := by
  cases exec_next h with
  | discard => exact hfresh
  | raise => exact hfresh
  | init => exact fun _ => rfl
  | absorb => exact fun hphase => by simp at hphase
  | finalize => exact fun hphase => by simp at hphase
  | squeeze => exact fun hphase => by simp at hphase
  | permute => cases hport

/-- The command port gives commands only (R86). -/
theorem onCommandPort_of_decodeCommand {w : CmdWord} {i : Instr} (h : decodeCommand w = .instr i) :
    onCommandPort i = true := by
  have hdec := commandDecodes w
  rw [h] at hdec
  cases hdec <;> rfl

/-- Where no test bench drives the engine port, no PERMUTE is fetched (R84). -/
theorem onCommandPort_of_fetch {s : State} {i : Instr} (hhost : hostOnly s) (h : (fetch s).1 = .instr i) :
    onCommandPort i = true := by
  unfold fetch at h
  split at h
  next => cases h
  next x rest hin =>
    have hx : ∀ req, x ≠ .word (.engine req) := hhost x (by rw [hin]; exact List.mem_cons_self)
    match x with
    | .word (.command w) =>
      simp only [fetchedInput, fetchedWord] at h
      split at h
      next hdec => cases h; exact onCommandPort_of_decodeCommand hdec
      next => cases h
    | .word (.engine req) => exact absurd rfl (hx req)
    | .reset => cases h
    | .resetDuring _ => cases h

/-- Settles O42: a step takes an input off the list, and no step but PERMUTE changes the lanes of a fresh context. -/
theorem createdLanesStayZero : Obligations.CreatedLanesStayZero := by
  intro s t hhost hfresh hstep
  have hhost' : hostOnly t := fun x hx => hhost x (List.mem_of_mem_tail (step_inputs_eq hstep ▸ hx))
  refine ⟨hhost', ?_⟩
  obtain ⟨u, hu, hstep⟩ := step_next hstep
  have hfresh : freshIsZero u := hu ▸ hfresh
  rcases hstep with ⟨-, rfl⟩ | ⟨-, rfl⟩ | ⟨w, -, hill⟩ | ⟨i, hi, hexec⟩
  · exact hfresh
  · exact fun hphase => by cases hphase
  · rcases illegalCommand_next hill with ⟨-, rfl⟩ | ⟨-, rfl⟩ <;> exact hfresh
  · exact freshIsZero_exec hfresh (onCommandPort_of_fetch hhost hi) hexec

end Sys2Proof.Machine

/-!
PROOF. The bytes that the commands store to and read (spec/20_memory.md R51 to R61; spec/41_sponge.md R139), and the
linear stages of the engine (spec/40_permutation.md R118).
-/

namespace Sys2Proof.Machine

/-- Settles O9, by the two laws of the byte view. -/
theorem byteAccessIsPartial : Obligations.ByteAccessIsPartial := by
  refine fun a p v => ⟨?_, memXor_eq_memWrite p v a⟩
  rw [memRead_isSome, decide_eq_true_iff]

/- The bytes that FINALIZE stores to. -/

/-- Two byte XORs leave every byte but theirs. -/
theorem memRead_memXor_twice_other {p p' q : Nat} {v v' : Byte} {a a' a'' : Lanes} (h : memXor p v a = some a')
    (h' : memXor p' v' a' = some a'') (hp : q ≠ p) (hp' : q ≠ p') : memRead q a'' = memRead q a := by
  rw [memRead_memXor_other h' hp', memRead_memXor_other h hp]

/-- Settles O24: both padding bytes are XORed in, the second into what the first left. -/
theorem finalizeOverlapXorsBothPadBytes : Obligations.FinalizeOverlapXorsBothPadBytes := by
  intro s hf hp hpos hmax
  obtain ⟨a, a', ha, ha', hexec⟩ := exec_finalize_executes hf hp hpos hmax
  rw [← lastRatePosition_eq (by omega)] at ha'
  refine ⟨_, hexec, fun q => memRead_memXor_twice_other ha ha', ?_⟩
  rw [afterFinalize_lanes]
  split
  next heq =>
    rw [← heq] at ha'
    rw [memRead_memXor_same ha', memRead_memXor_same ha, Option.map_map]
    refine congrArg (Option.map · _) (funext fun b => ?_)
    simp [padFirst, padLast, BitVec.xor_assoc]
  next hne =>
    refine ⟨?_, ?_⟩
    · rw [memRead_memXor_other ha' hne, memRead_memXor_same ha, padFirst]
    · rw [memRead_memXor_same ha', memRead_memXor_other ha (Ne.symm hne), padLast]

/- The bytes that each command stores to. -/

theorem absorb_stores_at_cursor {b : Byte} {s t : State} (h : exec (.absorb b) s = .next t)
    (hperms : t.perms = s.perms) :
    (∀ q, q ≠ cursorPosition s → memRead q t.lanes = memRead q s.lanes) ∧
    (t.pos ≠ s.pos → memRead (cursorPosition s) t.lanes = (memRead (cursorPosition s) s.lanes).map (· ^^^ b)) := by
  cases exec_next h with
  | discard => exact ⟨fun _ _ => rfl, fun hmoved => absurd rfl hmoved⟩
  | raise => exact ⟨fun _ _ => rfl, fun hmoved => absurd rfl hmoved⟩
  | absorb _ _ ha =>
    obtain ⟨hlanes, -⟩ := afterAbsorb_of_perms_eq hperms
    rw [hlanes]
    exact ⟨fun q => memRead_memXor_other ha, fun _ => memRead_memXor_same ha⟩

theorem finalize_stores_at_cursor_and_last {s t : State} (h : exec .finalize s = .next t) {q : Nat}
    (hcursor : q ≠ cursorPosition s) (hlast : q ≠ lastRatePosition s) : memRead q t.lanes = memRead q s.lanes := by
  cases exec_next h with
  | discard => rfl
  | raise => rfl
  | finalize _ _ ha ha' => exact memRead_memXor_twice_other ha ha' hcursor hlast

theorem squeeze_stores_nothing {s t : State} (h : exec .squeeze s = .next t) (hperms : t.perms = s.perms) :
    t.lanes = s.lanes := by
  cases exec_next h with
  | discard => rfl
  | raise => rfl
  | squeeze => exact afterSqueeze_lanes_of_perms_eq hperms

/-- Settles O35, command by command. -/
theorem commandsStoreOnlyTheirBytes : Obligations.CommandsStoreOnlyTheirBytes := by
  refine ⟨fun s t b => absorb_stores_at_cursor, fun s t h q => finalize_stores_at_cursor_and_last h, ?_⟩
  intro s t h hperms q
  rw [squeeze_stores_nothing h hperms]

/- The capacity region (R60, R61). -/

/-- Settles O43: the positions that ABSORB and FINALIZE store to when they execute lie below the rate. -/
theorem capacityIsNotTouchedDirectly : Obligations.CapacityIsNotTouchedDirectly := by
  rintro i s t ⟨hcursor, -, -⟩ hi h hperms q hq
  cases exec_next h with
  | discard => rfl
  | raise => rfl
  | @init sec => exact absurd rfl (hi sec)
  | absorb _ hp =>
    obtain ⟨hpos, -⟩ := cursorFits_before_finalize hcursor hp
    refine (absorb_stores_at_cursor h hperms).1 q ?_
    unfold cursorPosition
    omega
  | finalize _ hp =>
    obtain ⟨hpos, -⟩ := cursorFits_before_finalize hcursor hp
    refine finalize_stores_at_cursor_and_last h ?_ ?_
    · unfold cursorPosition
      omega
    · rw [lastRatePosition_eq (by omega)]
      omega
  | squeeze => rw [squeeze_stores_nothing h hperms]
  | permute => simp at hperms

theorem afterSqueeze_pos (b : Byte) (s : State) :
    (afterSqueeze b s).pos = (permuteAtRate (quiet s)).pos + 1 := rfl

theorem afterSqueeze_lanes (b : Byte) (s : State) :
    (afterSqueeze b s).lanes = (permuteAtRate (quiet s)).lanes := rfl

/-- Settles O44: an executed SQUEEZE reads at the cursor that the trigger leaves, and only that form outputs a byte. -/
theorem squeezeReadsBelowRate : Obligations.SqueezeReadsBelowRate := by
  rintro s t b ⟨hcursor, -, -⟩ h hout
  cases exec_next h with
  | discard => cases hout
  | raise => cases hout
  | @squeeze c hf hp hb =>
    obtain rfl : c = b := by simpa using hout
    obtain ⟨hpos, hrate, hmax⟩ := cursorFits_after_finalize hcursor hp
    have hlt : (permuteAtRate (quiet s)).pos.toNat < s.rate.toNat := permuteAtRate_pos_lt_rate (s := quiet s) hpos hrate
    refine ⟨_, by rwa [afterSqueeze_rate], ?_, hb⟩
    rw [afterSqueeze_pos]
    bv_omega

/- Linearity. -/

theorem getElem_xorLanes (a b : Lanes) (i : Fin 25) : (xorLanes a b)[i] = a[i] ^^^ b[i] := Vector.getElem_ofFn _

theorem laneAt_xorLanes (a b : Lanes) (x y : Fin 5) : laneAt (xorLanes a b) x y = laneAt a x y ^^^ laneAt b x y :=
  getElem_xorLanes a b (laneIndex x y)

theorem rol64_xor (v w : Lane) {n : Nat} (hn : n < 64) : rol64 (v ^^^ w) n = rol64 v n ^^^ rol64 w n := by
  simp only [rol64_eq_rotateLeft _ hn]
  refine BitVec.eq_of_getLsbD_eq fun i hi => ?_
  by_cases hwrap : i < n <;> simp [Nat.mod_eq_of_lt hn, hwrap, hi]

theorem colParity_xorLanes (a b : Lanes) (x : Fin 5) :
    colParity (xorLanes a b) x = colParity a x ^^^ colParity b x := by
  simp only [colParity, laneAt_xorLanes]
  ac_rfl

theorem thetaMask_xorLanes (a b : Lanes) (x : Fin 5) :
    thetaMask (xorLanes a b) x = thetaMask a x ^^^ thetaMask b x := by
  simp only [thetaMask, colParity_xorLanes, rol64_xor _ _ (show 1 < 64 by decide)]
  ac_rfl

theorem theta_xorLanes (a b : Lanes) : theta (xorLanes a b) = xorLanes (theta a) (theta b) := by
  refine lanes_ext_laneAt fun x y => ?_
  simp only [laneAt_xorLanes, laneAt_theta, thetaMask_xorLanes]
  ac_rfl

theorem rho_xorLanes (a b : Lanes) : rho (xorLanes a b) = xorLanes (rho a) (rho b) := by
  refine lanes_ext fun i => ?_
  rw [getElem_xorLanes, getElem_rho, getElem_rho, getElem_rho, getElem_xorLanes, rol64_xor _ _ (rhoTable_lt i)]

theorem getElem_pi (a : Lanes) (j : Fin 25) : (pi a)[j] = a[piSrc[j]] := Vector.getElem_ofFn _

theorem pi_xorLanes (a b : Lanes) : pi (xorLanes a b) = xorLanes (pi a) (pi b) := by
  refine lanes_ext fun j => ?_
  rw [getElem_xorLanes, getElem_pi, getElem_pi, getElem_pi, getElem_xorLanes]

/-- Settles O17, stage by stage: parities and rotations of a XOR are XORs, and PI only moves lanes. -/
theorem thetaRhoPiAreLinear : Obligations.ThetaRhoPiAreLinear :=
  fun a b => ⟨theta_xorLanes a b, rho_xorLanes a b, pi_xorLanes a b⟩

end Sys2Proof.Machine

/-!
PROOF. What cannot be observed (spec/10_state.md R35; spec/20_memory.md R61; spec/30_encoding.md R82;
spec/70_reset_and_hazards.md R202): two runs of one instruction from states that differ in some registers only.
-/

namespace Sys2Proof.Machine

/- The form an instruction runs in is fixed by the phase and the fault register. -/

/-- Any way an instruction can run is the way it does. -/
theorem exec_unique {i : Instr} {s t u : State} (h : exec i s = .next t) (hran : Ran s i u) : t = u := by
  rw [exec_of_ran hran] at h
  cases h
  rfl

theorem absorb_executed {b : Byte} {s t : State} (h : exec (.absorb b) s = .next t) (hf : s.fault = .noFault)
    (hp : s.phase = .created ∨ s.phase = .absorbing) :
    ∃ a, t = afterAbsorb a s := by
  have hc := (tableCause_absorb_eq_none_iff s.phase b).mpr hp
  cases exec_next h with
  | discard hf' => exact absurd hf hf'
  | raise _ _ hc' => simp [hc] at hc'
  | absorb => exact ⟨_, rfl⟩

theorem finalize_executed {s t : State} (h : exec .finalize s = .next t) (hf : s.fault = .noFault)
    (hp : s.phase = .created ∨ s.phase = .absorbing) :
    ∃ a, t = afterFinalize a s := by
  have hc := (tableCause_finalize_eq_none_iff s.phase).mpr hp
  cases exec_next h with
  | discard hf' => exact absurd hf hf'
  | raise _ _ hc' => simp [hc] at hc'
  | finalize => exact ⟨_, rfl⟩

theorem squeeze_executed {s t : State} (h : exec .squeeze s = .next t) (hf : s.fault = .noFault)
    (hp : s.phase = .padded ∨ s.phase = .squeezing) :
    ∃ b, memRead (permuteAtRate (quiet s)).pos.toNat (permuteAtRate (quiet s)).lanes = some b ∧
      t = afterSqueeze b s := by
  have hc := (tableCause_squeeze_eq_none_iff s.phase).mpr hp
  cases exec_next h with
  | discard hf' => exact absurd hf hf'
  | raise _ _ hc' => simp [hc] at hc'
  | squeeze _ _ hb => exact ⟨_, hb, rfl⟩

/- The lanes. -/

/-- Two states differ in the lanes, the output byte and the output record only. -/
def AgreeButOutput (t t' : State) : Prop :=
  { t' with lanes := t.lanes, outByte := t.outByte, outputs := t.outputs } = t

theorem afterAbsorb_agree (a a' l : Lanes) (s : State) :
    AgreeButOutput (afterAbsorb a s) (afterAbsorb a' { s with lanes := l }) := by
  rw [afterAbsorb_eq, afterAbsorb_eq]
  split <;> rfl

theorem afterSqueeze_agree (b b' : Byte) (l : Lanes) (s : State) :
    AgreeButOutput (afterSqueeze b s) (afterSqueeze b' { s with lanes := l }) := by
  rw [afterSqueeze_eq, afterSqueeze_eq]
  split <;> rfl

theorem exec_agree {i : Instr} {s t t' : State} {l : Lanes} (h : exec i s = .next t)
    (h' : exec i { s with lanes := l } = .next t') : AgreeButOutput t t' := by
  cases exec_next h with
  | discard hf hport hg => rw [exec_unique h' (.discard hf hport hg)]; rfl
  | raise hf hport hc => rw [exec_unique h' (.raise hf hport hc)]; rfl
  | init hsec => rw [exec_unique h' (.init hsec)]; rfl
  | absorb hf hp =>
    obtain ⟨a', rfl⟩ := absorb_executed h' hf hp
    exact afterAbsorb_agree _ a' l s
  | finalize hf hp =>
    obtain ⟨a', rfl⟩ := finalize_executed h' hf hp
    rfl
  | squeeze hf hp =>
    obtain ⟨b', -, rfl⟩ := squeeze_executed h' hf hp
    exact afterSqueeze_agree _ b' l s
  | permute => rw [exec_unique h' .permute]; rfl

/-- Settles O46: the form that runs does not depend on the lanes, and only SQUEEZE outputs. -/
theorem lanesShowOnlyThroughSqueeze : Obligations.LanesShowOnlyThroughSqueeze := by
  refine fun i s t t' l h h' => ⟨exec_agree h h', fun hi => ?_⟩
  obtain ⟨houtputs, hout⟩ := exec_output_eq h hi
  obtain ⟨houtputs', hout'⟩ := exec_output_eq h' hi
  exact ⟨hout'.trans hout.symm, houtputs'.trans houtputs.symm⟩

/-- Settles O47: neither the form that runs nor the trigger depends on the byte or on the lanes. -/
theorem absorbCountsDoNotDependOnData : Obligations.AbsorbCountsDoNotDependOnData := by
  intro s t t' l b b' h h'
  cases exec_next h with
  | discard hf => rw [exec_unique h' (.discard hf rfl rfl)]; exact ⟨rfl, rfl, rfl, rfl, rfl⟩
  | raise hf _ hc =>
    rw [tableCause_absorb, ← tableCause_absorb _ b'] at hc
    rw [exec_unique h' (.raise hf rfl hc)]
    exact ⟨rfl, rfl, rfl, rfl, rfl⟩
  | @absorb _ a hf hp =>
    obtain ⟨a', rfl⟩ := absorb_executed h' hf hp
    rw [afterAbsorb_eq, afterAbsorb_eq]
    split <;> exact ⟨rfl, rfl, rfl, rfl, rfl⟩

/-- Settles O45: without a permutation SQUEEZE outputs the byte at the cursor, below the rate, where the lanes agree. -/
theorem squeezeDoesNotLeakCapacity : Obligations.SqueezeDoesNotLeakCapacity := by
  rintro s t t' l ⟨hcursor, -, -⟩ hbelow h h' hperms
  cases exec_next h with
  | discard hf => rw [exec_unique h' (.discard hf rfl rfl)]; exact ⟨rfl, rfl⟩
  | raise hf _ hc => rw [exec_unique h' (.raise hf rfl hc)]; exact ⟨rfl, rfl⟩
  | @squeeze b hf hp hb =>
    obtain ⟨b', hb', rfl⟩ := squeeze_executed h' hf hp
    have hne := pos_ne_rate_of_afterSqueeze_perms_eq hperms
    obtain ⟨hpos, hrate, -⟩ := cursorFits_after_finalize hcursor hp
    rw [permuteAtRate_of_ne (s := quiet s) hne] at hb
    rw [permuteAtRate_of_ne (s := quiet { s with lanes := l }) hne] at hb'
    have hsame : memRead s.pos.toNat l = memRead s.pos.toNat s.lanes := hbelow _ (by bv_omega)
    obtain rfl : b' = b := Option.some.inj (hb'.symm.trans (hsame.trans hb))
    rw [afterSqueeze_eq, afterSqueeze_eq, if_neg hne, if_neg hne]
    exact ⟨rfl, rfl⟩

/- The values that reset leaves unspecified, and the old context. -/

/-- In IDLE every command but INIT has a fault in the phase table, and the cause does not depend on the command. -/
theorem tableCause_idle {i : Instr} (hport : onCommandPort i = true) (hgood : goodInit i = false) :
    ∃ c, tableCause .idle i = some c := by
  cases i with
  | init sec =>
    have hsec : 800 ≤ sec.toNat := by
      by_contra hlow
      exact Bool.false_ne_true (hgood.symm.trans (goodInit_iff.mpr ⟨sec, rfl, by omega⟩))
    exact ⟨_, (tableCause_init _ sec).trans (initCause_of_ge hsec)⟩
  | permute => cases hport
  | _ => exact ⟨_, rfl⟩

/-- In IDLE the ports do not show the lanes, the rate and the cursor (R82). -/
theorem portView_idle {s : State} (hidle : s.phase = .idle) (l : Lanes) (r p : Byte) :
    portView { s with lanes := l, rate := r, pos := p } = portView s := by
  simp only [portView, hidle, if_true]

/-- Settles O33: a good INIT overwrites the three, and every other command leaves the block in IDLE. -/
theorem unspecifiedValuesCannotBeObserved : Obligations.UnspecifiedValuesCannotBeObserved := by
  intro s l r p i hidle hport
  cases hgood : goodInit i with
  | true =>
    obtain ⟨sec, rfl, hsec⟩ := goodInit_iff.mp hgood
    exact ⟨_, _, exec_of_ran (.init hsec), exec_of_ran (.init hsec), rfl, rfl, rfl, fun _ => rfl⟩
  | false =>
    by_cases hf : s.fault = .noFault
    · obtain ⟨c, hc⟩ := tableCause_idle hport hgood
      rw [← hidle] at hc
      exact ⟨_, _, exec_of_ran (.raise hf hport hc), exec_of_ran (.raise hf hport hc),
        (portView_idle (s := raised c (commandWord i) s) hidle l r p).symm, rfl, rfl, fun hleft => absurd hidle hleft⟩
    · exact ⟨_, _, exec_of_ran (.discard hf hport hgood), exec_of_ran (.discard hf hport hgood),
        (portView_idle (s := discarded s) hidle l r p).symm, rfl, rfl, fun hleft => absurd hidle hleft⟩

/-- Settles O21: what a successful INIT leaves holds none of the registers it names. -/
theorem initForgetsOldContext : Obligations.InitForgetsOldContext := by
  intro s sec a r p ph f w hsec
  rw [exec_of_ran (.init hsec), exec_of_ran (.init hsec)]
  rfl

end Sys2Proof.Machine

/-!
PROOF. Reset (spec/10_state.md R35; spec/70_reset_and_hazards.md R190, R191).
-/

namespace Sys2Proof.Machine

/-- Settles O30, by evaluating the reset state. -/
theorem resetStateHoldsStatedValues : Obligations.ResetStateHoldsStatedValues := ⟨rfl, rfl, rfl, rfl, rfl⟩

/-- Settles O31: the step asserts reset, whatever the state holds. -/
theorem resetIsEnabledInEveryState : Obligations.ResetIsEnabledInEveryState :=
  fun _ _ hin => ⟨_, step_of_reset hin, rfl, rfl, rfl, rfl, rfl, rfl, rfl, rfl, rfl⟩

/-- A word that reset cuts short is not fetched (R191). -/
theorem step_of_resetDuring {s : State} {p : PortWord} {rest : List Input} (hin : s.inputs = .resetDuring p :: rest) :
    step s = .next (assertReset { s with inputs := rest }) := by
  simp only [step, fetch, hin, fetchedInput]

/-- Settles O32: both steps assert reset in the same state. -/
theorem resetAbandonsCommand : Obligations.ResetAbandonsCommand := by
  intro s p rest hin
  have hreset : step { s with inputs := .reset :: rest } = .next (assertReset { s with inputs := rest }) :=
    step_of_reset rfl
  refine ⟨(step_of_resetDuring hin).trans hreset.symm, fun t h => ?_⟩
  rw [step_of_resetDuring hin] at h
  cases h
  exact ⟨rfl, rfl⟩

end Sys2Proof.Machine

/-!
PROOF. Steps and instructions in order (spec/70_reset_and_hazards.md R204): an instruction does not look at the host's
list, so running the list is running the instructions.
-/

namespace Sys2Proof.Machine

/-- The state with the host's list replaced. -/
def withInputs (l : List Input) (s : State) : State := { s with inputs := l }

/-- The result with the host's list replaced. -/
def onInputs (l : List Input) : Result → Result
  | .next t => .next (withInputs l t)
  | .fault r => .fault r
  | .refused r => .refused r

theorem guarded_withInputs {w : CmdWord} {isInit : Bool} {cause : Option FaultCause} {run : State → Result}
    (l : List Input) (s : State) (hrun : ∀ u, run (withInputs l u) = onInputs l (run u)) :
    guarded w isInit cause (withInputs l s) run = onInputs l (guarded w isInit cause s run) := by
  have hfault : (withInputs l s).fault = s.fault := rfl
  by_cases hf : s.fault = .noFault
  · cases cause with
    | none => rw [guarded_runs hf, guarded_runs (hfault.trans hf)]; exact hrun (quiet s)
    | some c => rw [guarded_raises hf, guarded_raises (hfault.trans hf)]; rfl
  · by_cases hd : isInit = false ∨ cause ≠ none
    · rw [guarded_discards hf hd, guarded_discards (hfault ▸ hf) hd]; rfl
    · push Not at hd
      obtain ⟨hinit, rfl⟩ := hd
      obtain rfl : isInit = true := by simpa using hinit
      rw [guarded_runs_init, guarded_runs_init]
      exact hrun (quiet s)

theorem xorByteThen_withInputs {p : Nat} {v : Byte} {k : State → Result} (l : List Input) (s : State)
    (hk : ∀ u, k (withInputs l u) = onInputs l (k u)) :
    xorByteThen p v (withInputs l s) k = onInputs l (xorByteThen p v s k) := by
  have hlanes : (withInputs l s).lanes = s.lanes := rfl
  unfold xorByteThen
  rw [hlanes]
  cases memXor p v s.lanes with
  | none => rfl
  | some a => exact hk { s with lanes := a }

theorem readByteThen_withInputs {p : Nat} {k k' : Byte → Result} (l : List Input) (s : State)
    (hk : ∀ b, k' b = onInputs l (k b)) : readByteThen p (withInputs l s) k' = onInputs l (readByteThen p s k) := by
  have hlanes : (withInputs l s).lanes = s.lanes := rfl
  unfold readByteThen
  rw [hlanes]
  cases memRead p s.lanes with
  | none => rfl
  | some b => exact hk b

theorem permuteAtRate_withInputs (l : List Input) (s : State) :
    permuteAtRate (withInputs l s) = withInputs l (permuteAtRate s) := by
  by_cases h : s.pos = s.rate
  · rw [permuteAtRate_of_eq h, permuteAtRate_of_eq (s := withInputs l s) h]; rfl
  · rw [permuteAtRate_of_ne h, permuteAtRate_of_ne (s := withInputs l s) h]

/-- No instruction looks at the host's list. -/
theorem exec_withInputs (i : Instr) (l : List Input) (s : State) :
    exec i (withInputs l s) = onInputs l (exec i s) := by
  cases i with
  | init sec =>
    rw [exec_init, exec_init, execInit, execInit]
    exact guarded_withInputs l s fun _ => rfl
  | absorb b =>
    rw [exec_absorb, exec_absorb, execAbsorb, execAbsorb]
    refine guarded_withInputs l s fun u => xorByteThen_withInputs l u fun v => congrArg Host.Outcome.next ?_
    have hcommutes := permuteAtRate_withInputs l { v with pos := v.pos + 1 }
    exact congrArg (fun t : State => { t with phase := .absorbing }) hcommutes
  | finalize =>
    rw [exec_finalize, exec_finalize, execFinalize, execFinalize]
    exact guarded_withInputs l s fun u => xorByteThen_withInputs l u fun v => xorByteThen_withInputs l v fun _ => rfl
  | squeeze =>
    rw [exec_squeeze, exec_squeeze, execSqueeze, execSqueeze]
    refine guarded_withInputs l s fun u => ?_
    simp only [permuteAtRate_withInputs]
    exact readByteThen_withInputs l (permuteAtRate u) fun _ => rfl
  | permute => rfl

/-- The step that takes the word of an instruction runs it and leaves the rest of the list. -/
theorem step_of_encoded {s : State} {i : Instr} {rest : List Input} (hin : s.inputs = .word (encode i) :: rest) :
    step s = onInputs rest (exec i (withInputs [] s)) :=
  (stepRunsDecodedInstruction s _ rest i hin (decode_encode i)).trans (exec_withInputs i rest (withInputs [] s))

/- A run by the outcome of its first step. -/

theorem run_of_next {M : Host.Core} {s t : M.State} (k : Nat) (h : M.step s = .next t) :
    M.run (k + 1) s = M.run k t := by rw [Host.Core.run, h]

theorem run_of_fault {M : Host.Core} {s : M.State} {r : M.Fault} (k : Nat) (h : M.step s = .fault r) :
    M.run (k + 1) s = .fault r := by rw [Host.Core.run, h]

theorem run_of_refused {M : Host.Core} {s : M.State} {r : M.Refusal} (k : Nat) (h : M.step s = .refused r) :
    M.run (k + 1) s = .refused r := by rw [Host.Core.run, h]

/-- Settles O48, by induction on the instructions: the step that takes the first word runs the first instruction. -/
theorem stepsRunInstructionsInOrder : Obligations.StepsRunInstructionsInOrder := by
  intro is
  induction is with
  | nil => exact fun s hin => congrArg Host.Outcome.next (by rw [← show s.inputs = [] from hin])
  | cons i is ih =>
    intro s hin
    have hstep := step_of_encoded hin
    show core.run (is.length + 1) s = execAll (i :: is) (withInputs [] s)
    unfold execAll
    cases hexec : exec i (withInputs [] s) with
    | next t =>
      rw [hexec] at hstep
      have hempty : withInputs [] t = t := by rw [withInputs, ← show t.inputs = [] from exec_inputs_eq hexec]
      have hrest := ih (withInputs _ t) rfl
      exact (run_of_next _ hstep).trans (hrest.trans (congrArg (execAll is) hempty))
    | fault r => rw [hexec] at hstep; exact run_of_fault _ hstep
    | refused r => rw [hexec] at hstep; exact run_of_refused _ hstep

end Sys2Proof.Machine

/-!
PROOF. Blocks of bytes in the lanes (spec/41_sponge.md R134, R152): lane arrays by their 200 bytes, a block XORed in
byte by byte, and the absorption of whole blocks and of a padded message.
-/

namespace Sys2Proof.Machine

/- Lane arrays by their bytes. -/

/-- Lane arrays are equal when their 200 bytes are. -/
theorem lanes_ext_byteAt {a b : Lanes} (h : ∀ p < 200, byteAt a p = byteAt b p) : a = b := by
  refine lanes_ext fun i => lane_ext fun m hm k hk => ?_
  rw [lane_eq_packLane a i, lane_eq_packLane b i, getLsbD_packLane _ hm hk, getLsbD_packLane _ hm hk,
    h _ (by omega)]

theorem memRead_eq_byteAt {p : Nat} (a : Lanes) (hp : p < 200) : memRead p a = some (byteAt a p) := by
  rw [byteAt_eq a hp, memRead_eq a hp]

/-- A byte XOR by what it adds to each byte. -/
theorem byteAt_memXor {p : Nat} {v : Byte} {a a' : Lanes} (h : memXor p v a = some a') (q : Nat) :
    byteAt a' q = byteAt a q ^^^ if q = p then v else 0 := by
  by_cases hq : q = p
  · have hp : p < 200 := by simpa [h] using memXor_isSome p v a
    rw [if_pos hq, hq, byteAt, memRead_memXor_same h, memRead_eq_byteAt a hp]
    rfl
  · rw [if_neg hq, byteAt, memRead_memXor_other h hq]
    exact BitVec.xor_zero.symm

/-- A block XORed in, by what it adds to each byte (R152). -/
theorem byteAt_xorBlock (a : Lanes) (block : List Byte) {p : Nat} (hp : p < 200) :
    byteAt (xorBlock a block) p = byteAt a p ^^^ block.getD p 0 := by
  have hlane : (xorBlock a block)[p / 8] = a[p / 8] ^^^ packLane fun k => block.getD (8 * (p / 8) + k) 0 :=
    Vector.getElem_ofFn _
  have hplace : 8 * (p / 8) + p % 8 = p := Nat.div_add_mod p 8
  rw [byteAt_eq _ hp, byteAt_eq _ hp, hlane]
  refine BitVec.eq_of_getLsbD_eq fun k hk => ?_
  rw [BitVec.getLsbD_xor, getLsbD_laneByte _ _ hk, getLsbD_laneByte _ _ hk, BitVec.getLsbD_xor,
    getLsbD_packLane _ (Nat.mod_lt _ (by decide)) hk, hplace]

theorem xorBlock_nil (a : Lanes) : xorBlock a [] = a :=
  lanes_ext_byteAt fun _ hp => (byteAt_xorBlock a [] hp).trans BitVec.xor_zero

/-- The bytes of a list with one more byte at its end, those beyond the end being 0. -/
theorem getD_concat_byte (block : List Byte) (b : Byte) (p : Nat) :
    (block ++ [b]).getD p 0 = block.getD p 0 ^^^ if p = block.length then b else 0 := by
  rcases Nat.lt_trichotomy p block.length with hlt | rfl | hgt
  · rw [List.getD_append _ _ _ _ hlt, if_neg hlt.ne]
    exact BitVec.xor_zero.symm
  · simp
  · rw [if_neg hgt.ne', List.getD_eq_default _ _ (by simpa using hgt), List.getD_eq_default _ _ hgt.le]
    rfl

/-- One more byte of a block is one byte XOR at the end of the block. -/
theorem memXor_xorBlock (a : Lanes) (block : List Byte) (b : Byte) (hlen : block.length < 200) :
    memXor block.length b (xorBlock a block) = some (xorBlock a (block ++ [b])) := by
  have hx := memXor_eq b (xorBlock a block) hlen
  rw [hx]
  refine congrArg some (lanes_ext_byteAt fun p hp => ?_)
  rw [byteAt_memXor hx, byteAt_xorBlock a _ hp, byteAt_xorBlock a _ hp, getD_concat_byte, BitVec.xor_assoc]

/- Whole blocks. -/

/-- Bytes beyond the first `n` blocks do not enter their absorption. -/
theorem absorbBlocks_append {rate n : Nat} {bytes : List Byte} (extra : List Byte) (a : Lanes)
    (h : n * rate ≤ bytes.length) : absorbBlocks rate n (bytes ++ extra) a = absorbBlocks rate n bytes a := by
  induction n generalizing bytes a with
  | zero => rfl
  | succ n ih =>
    have hfirst : rate ≤ bytes.length := (Nat.le_mul_of_pos_left rate n.succ_pos).trans h
    have hrest : n * rate ≤ (bytes.drop rate).length := by
      rw [List.length_drop]
      rw [Nat.succ_mul] at h
      omega
    rw [absorbBlocks, absorbBlocks, List.take_append_of_le_length hfirst, List.drop_append_of_le_length hfirst,
      ih _ hrest]

/-- The last of `n + 1` blocks is absorbed into what the first `n` leave. -/
theorem absorbBlocks_succ (rate n : Nat) (bytes : List Byte) (a : Lanes) : absorbBlocks rate (n + 1) bytes a =
    permute (xorBlock (absorbBlocks rate n bytes a) ((bytes.drop (n * rate)).take rate)) := by
  induction n generalizing bytes a with
  | zero => rw [Nat.zero_mul, List.drop_zero]; rfl
  | succ n ih =>
    rw [absorbBlocks, ih, List.drop_drop, Nat.succ_mul, Nat.add_comm]
    rfl

/- One byte more. -/

/-- How the number of full blocks and the place in the block move with one more byte. -/
theorem succ_div_mod (n : Nat) {rate : Nat} (hrate : 1 ≤ rate) :
    if n % rate + 1 = rate then (n + 1) / rate = n / rate + 1 ∧ (n + 1) % rate = 0
    else (n + 1) / rate = n / rate ∧ (n + 1) % rate = n % rate + 1 := by
  have hn := Nat.mod_add_div n rate
  have hlt := Nat.mod_lt n hrate
  split <;> rw [Nat.div_mod_unique hrate]
  · rw [Nat.mul_succ]
    omega
  · omega

/-- The bytes of the block that is being filled. -/
theorem length_drop_full_blocks (bytes : List Byte) (rate : Nat) :
    (bytes.drop (bytes.length / rate * rate)).length = bytes.length % rate := by
  rw [List.length_drop, Nat.mod_eq_sub_div_mul]

/-- The byte XOR of ABSORB, at the next place in the block, appends the byte to the block (R134). -/
theorem memXor_absorbed {rate : Nat} (bytes : List Byte) (b : Byte) (a : Lanes) (hrate : 1 ≤ rate)
    (hmax : rate ≤ 200) :
    memXor (bytes.length % rate) b (absorbed rate bytes a) =
      some (xorBlock (absorbBlocks rate (bytes.length / rate) bytes a)
        (bytes.drop (bytes.length / rate * rate) ++ [b])) := by
  have hlt := Nat.mod_lt bytes.length hrate
  rw [← length_drop_full_blocks] at hlt ⊢
  exact memXor_xorBlock _ _ _ (hlt.trans_le hmax)

/-- One more byte is XORed in at its place in the block, and where it fills the block the permutation follows (R134). -/
theorem absorbed_concat {rate : Nat} {bytes : List Byte} {b : Byte} {a a' : Lanes} (hrate : 1 ≤ rate)
    (hmax : rate ≤ 200) (h : memXor (bytes.length % rate) b (absorbed rate bytes a) = some a') :
    absorbed rate (bytes ++ [b]) a = if bytes.length % rate + 1 = rate then permute a' else a' := by
  obtain rfl := Option.some.inj ((memXor_absorbed bytes b a hrate hmax).symm.trans h)
  have hdivmod := succ_div_mod bytes.length hrate
  have hfull : bytes.length / rate * rate ≤ bytes.length := Nat.div_mul_le_self _ _
  have hlen : (bytes ++ [b]).length = bytes.length + 1 := List.length_append
  rw [absorbed, hlen]
  split at hdivmod <;> rename_i hfills <;> obtain ⟨hdiv, hmod⟩ := hdivmod <;> rw [hdiv]
  · have hdone : (bytes ++ [b]).length ≤ (bytes.length / rate + 1) * rate := by
      rw [hlen, ← hdiv]
      have hsplit := Nat.div_add_mod' (bytes.length + 1) rate
      omega
    have hblock : (bytes.drop (bytes.length / rate * rate) ++ [b]).length ≤ rate := by
      rw [List.length_append, length_drop_full_blocks]
      exact hfills.le
    rw [if_pos hfills, List.drop_eq_nil_of_le hdone, xorBlock_nil, absorbBlocks_succ, absorbBlocks_append _ _ hfull,
      List.drop_append_of_le_length hfull, List.take_of_length_le hblock]
  · rw [if_neg hfills, absorbBlocks_append _ _ hfull, List.drop_append_of_le_length hfull]

/- The padding. -/

theorem length_padding {rate n : Nat} (h : n % rate < rate) : (padding rate n).length = rate - n % rate := by
  unfold padding
  simp only
  split
  next hone => simp [hone]
  next hmore => simp; omega

/-- The padding is the two bytes 0x1F and 0x80 at its ends, one byte where the ends meet (R139, R152). -/
theorem getD_padding {rate n : Nat} (h : n % rate < rate) (k : Nat) : (padding rate n).getD k 0 =
    (if k = 0 then padFirst else 0) ^^^ (if k + 1 = rate - n % rate then padLast else 0) := by
  unfold padding
  simp only
  split
  next hone =>
    rw [hone]
    cases k <;> simp [padFirst, padLast]
  next hmore =>
    cases k with
    | zero =>
      rw [if_pos rfl, if_neg (by omega)]
      rfl
    | succ k =>
      have hlast : k = rate - n % rate - 2 ↔ k + 1 + 1 = rate - n % rate := by omega
      rw [List.getD_cons_succ, getD_concat_byte, List.length_replicate, List.getD_eq_getElem?_getD,
        List.getElem?_getD_replicate_default_eq, if_neg k.succ_ne_zero]
      simp only [hlast, padLast]

/-- A list with the padding behind it, by its bytes. -/
theorem getD_append_padding {rate n : Nat} {d : List Byte} (h : n % rate < rate) (hd : d.length = n % rate) (q : Nat) :
    (d ++ padding rate n).getD q 0 =
      d.getD q 0 ^^^ (if q = n % rate then padFirst else 0) ^^^ (if q = rate - 1 then padLast else 0) := by
  by_cases hq : q < d.length
  · rw [List.getD_append _ _ _ _ hq, if_neg (by omega), if_neg (by omega)]
    simp
  · have hfirst : q - d.length = 0 ↔ q = n % rate := by omega
    have hlast : q - d.length + 1 = rate - n % rate ↔ q = rate - 1 := by omega
    rw [List.getD_append_right _ _ _ _ (by omega), List.getD_eq_default d _ (by omega), getD_padding h]
    simp only [hfirst, hlast, BitVec.xor_assoc]
    exact BitVec.zero_xor.symm

/-- FINALIZE's two byte XORs are the padding XORed in behind the bytes of the last block (R138, R152). -/
theorem xorBlock_append_padding {rate n : Nat} {d : List Byte} {a a' a'' : Lanes} (h : n % rate < rate)
    (hd : d.length = n % rate) (ha' : memXor (n % rate) padFirst (xorBlock a d) = some a')
    (ha'' : memXor (rate - 1) padLast a' = some a'') : a'' = xorBlock a (d ++ padding rate n) := by
  refine lanes_ext_byteAt fun q hq => ?_
  rw [byteAt_memXor ha'', byteAt_memXor ha', byteAt_xorBlock a d hq, byteAt_xorBlock a _ hq, getD_append_padding h hd]
  simp only [BitVec.xor_assoc]

/-- The lanes of a padded message are those that FINALIZE makes of the absorbed message (R152). -/
theorem absorbPadded_eq {rate : Nat} {message : List Byte} {a a' : Lanes} (hrate : 1 ≤ rate)
    (ha : memXor (message.length % rate) padFirst (absorbed rate message zeroLanes) = some a)
    (ha' : memXor (rate - 1) padLast a = some a') :
    absorbPadded rate (message ++ padding rate message.length) = a' := by
  have hlt := Nat.mod_lt message.length hrate
  have hfull : message.length / rate * rate ≤ message.length := Nat.div_mul_le_self _ _
  have hlen : (message ++ padding rate message.length).length = (message.length / rate + 1) * rate := by
    rw [List.length_append, length_padding hlt, Nat.succ_mul]
    have hsplit := Nat.div_add_mod' message.length rate
    omega
  rw [absorbPadded, hlen, Nat.mul_div_cancel _ hrate, Nat.add_sub_cancel, absorbBlocks_append _ _ hfull,
    List.drop_append_of_le_length hfull]
  exact (xorBlock_append_padding hlt (length_drop_full_blocks message rate) ha ha').symm

end Sys2Proof.Machine

/-!
PROOF. Sequences of commands (spec/41_sponge.md R135, R142, R150 to R152): the state after a number of ABSORBs on a
fresh context and after a number of SQUEEZEs on a finalized one, each kept by one more command, and from the two the
counts, the output stream, the chunk invariance and the end-to-end function.
-/

namespace Sys2Proof.Machine

theorem execAll_append_of_next {is js : List Instr} {s t : State} (h : execAll is s = .next t) :
    execAll (is ++ js) s = execAll js t := by rw [execAll_append, h]

theorem execAll_cons_of_next {i : Instr} {is : List Instr} {s t : State} (h : exec i s = .next t) :
    execAll (i :: is) s = execAll is t := by rw [execAll, h]

theorem execAll_concat_of_next {is : List Instr} {i : Instr} {s t u : State} (h : execAll is s = .next t)
    (h' : exec i t = .next u) : execAll (is ++ [i]) s = .next u := by
  rw [execAll_append_of_next h, execAll_cons_of_next h', execAll]

/- ABSORB after ABSORB. -/

/-- The state after the bytes were absorbed into the fresh context `s`. -/
structure Absorbed (s : State) (bytes : List Byte) (t : State) : Prop where
  lanes : t.lanes = absorbed s.rate.toNat bytes s.lanes
  rate : t.rate = s.rate
  pos : t.pos.toNat = bytes.length % s.rate.toNat
  phase : t.phase = if bytes = [] then .created else .absorbing
  fault : t.fault = .noFault
  everFaulted : t.everFaulted = s.everFaulted
  outputs : t.outputs = s.outputs
  perms : t.perms = s.perms + bytes.length / s.rate.toNat

theorem Absorbed.phase_before_finalize {s t : State} {bytes : List Byte} (h : Absorbed s bytes t) :
    t.phase = .created ∨ t.phase = .absorbing := by
  rw [h.phase]
  split
  next => exact .inl rfl
  next => exact .inr rfl

theorem absorbed_nil (rate : Nat) (a : Lanes) : absorbed rate [] a = a := by
  rw [absorbed, List.drop_nil, List.length_nil, Nat.zero_div, xorBlock_nil, absorbBlocks]

/-- A fresh context has absorbed nothing. -/
theorem Absorbed.nil {s : State} (hf : s.fault = .noFault) (hp : s.phase = .created) (hpos : s.pos = 0) :
    Absorbed s [] s where
  lanes := (absorbed_nil _ _).symm
  rate := rfl
  pos := by rw [hpos, List.length_nil, Nat.zero_mod]; rfl
  phase := hp
  fault := hf
  everFaulted := rfl
  outputs := rfl
  perms := by rw [List.length_nil, Nat.zero_div, Nat.add_zero]

/-- The lanes, the cursor and the count after one more byte, by whether it fills the block. -/
theorem Absorbed.afterAbsorb {s t : State} {bytes : List Byte} {b : Byte} {a : Lanes} (h : Absorbed s bytes t)
    (hrate : 1 ≤ s.rate.toNat) (hmax : s.rate.toNat ≤ 200) (ha : memXor (cursorPosition t) b t.lanes = some a) :
    (afterAbsorb a t).lanes = absorbed s.rate.toNat (bytes ++ [b]) s.lanes ∧
    (afterAbsorb a t).pos.toNat = (bytes ++ [b]).length % s.rate.toNat ∧
    (afterAbsorb a t).perms = s.perms + (bytes ++ [b]).length / s.rate.toNat := by
  have hlt := Nat.mod_lt bytes.length hrate
  have hfull : t.pos + 1 = t.rate ↔ bytes.length % s.rate.toNat + 1 = s.rate.toNat := by
    rw [pos_succ_eq_rate_iff (by rw [h.pos, h.rate]; exact hlt), h.pos, h.rate]
  have hdivmod := succ_div_mod bytes.length hrate
  rw [cursorPosition, h.pos, h.lanes] at ha
  rw [absorbed_concat hrate hmax ha, List.length_append, List.length_singleton, afterAbsorb_eq]
  simp only [hfull]
  split at hdivmod <;> rename_i hfills <;> obtain ⟨hdiv, hmod⟩ := hdivmod <;> rw [hdiv, hmod]
  · rw [if_pos hfills, if_pos hfills, h.perms, Nat.add_assoc]
    exact ⟨rfl, rfl, rfl⟩
  · rw [if_neg hfills, if_neg hfills]
    refine ⟨rfl, ?_, h.perms⟩
    rw [← h.pos, pos_succ_eq_ofNat, BitVec.toNat_ofNat, Nat.mod_eq_of_lt]
    rw [h.pos]
    omega

/-- One more ABSORB executes and absorbs its byte. -/
theorem Absorbed.concat {s t : State} {bytes : List Byte} (h : Absorbed s bytes t) (hrate : 1 ≤ s.rate.toNat)
    (hmax : s.rate.toNat ≤ 200) (b : Byte) :
    ∃ u, exec (.absorb b) t = .next u ∧ Absorbed s (bytes ++ [b]) u := by
  obtain ⟨a, ha, hexec⟩ := exec_absorb_executes b h.fault h.phase_before_finalize
    (by rw [h.pos, h.rate]; exact Nat.mod_lt _ hrate) (by rw [h.rate]; exact hmax)
  obtain ⟨hlanes, hpos, hperms⟩ := h.afterAbsorb hrate hmax ha
  refine ⟨_, hexec, ?_⟩
  exact {
    lanes := hlanes
    rate := by rw [afterAbsorb_rate, h.rate]
    pos := hpos
    phase := (if_neg (List.append_ne_nil_of_right_ne_nil _ (List.cons_ne_nil _ _))).symm
    fault := by rw [afterAbsorb_fault, h.fault]
    everFaulted := by rw [afterAbsorb_everFaulted, h.everFaulted]
    outputs := by rw [afterAbsorb_outputs, h.outputs]
    perms := hperms }

/-- A fresh context absorbs any list of bytes. -/
theorem execAll_absorb {s : State} (hf : s.fault = .noFault) (hp : s.phase = .created) (hpos : s.pos = 0)
    (hrate : 1 ≤ s.rate.toNat) (hmax : s.rate.toNat ≤ 200) (bytes : List Byte) :
    ∃ t, execAll (bytes.map .absorb) s = .next t ∧ Absorbed s bytes t := by
  induction bytes using List.reverseRecOn with
  | nil => exact ⟨s, rfl, .nil hf hp hpos⟩
  | append_singleton bytes b ih =>
    obtain ⟨t, ht, habsorbed⟩ := ih
    obtain ⟨u, hu, habsorbed'⟩ := habsorbed.concat hrate hmax b
    refine ⟨u, ?_, habsorbed'⟩
    rw [List.map_append]
    exact execAll_concat_of_next ht hu

/-- In a fresh context that meets the invariant the cursor is 0 and the rate legal (R148). -/
theorem cursorFits_created {s : State} (h : cursorFits s) (hp : s.phase = .created) :
    s.pos = 0 ∧ 1 ≤ s.rate.toNat ∧ s.rate.toNat ≤ 200 := by
  unfold cursorFits at h
  rw [hp] at h
  obtain ⟨⟨hmin, hmax⟩, hpos⟩ := h
  exact ⟨hpos, hmin, hmax⟩

theorem execAll_absorb_of_inv {s : State} (hinv : s.Inv) (hf : s.fault = .noFault) (hp : s.phase = .created)
    (bytes : List Byte) : ∃ t, execAll (bytes.map .absorb) s = .next t ∧ Absorbed s bytes t := by
  obtain ⟨hcursor, -, -⟩ := hinv
  obtain ⟨hpos, hrate, hmax⟩ := cursorFits_created hcursor hp
  exact execAll_absorb hf hp hpos hrate hmax bytes

/-- Settles O50: the count and the cursor of the absorbed bytes. -/
theorem absorbedBytesCountBlocks : Obligations.AbsorbedBytesCountBlocks := by
  intro s bytes hinv hf hp
  obtain ⟨t, ht, h⟩ := execAll_absorb_of_inv hinv hf hp bytes
  exact ⟨t, ht, h.fault, h.rate, h.perms, h.pos⟩

/- SQUEEZE after SQUEEZE. -/

/-- The engine's last run comes after the others. -/
theorem permuteTimes_succ (k : Nat) (a : Lanes) : permuteTimes (k + 1) a = permute (permuteTimes k a) := by
  induction k generalizing a with
  | zero => rfl
  | succ k ih => exact ih (permute a)

theorem stream_succ (rate : Nat) (a : Lanes) (n : Nat) :
    stream rate a (n + 1) = stream rate a n ++ [streamByte rate a n] := by
  rw [stream, List.range_succ, List.map_append]
  rfl

theorem take_stream (rate : Nat) (a : Lanes) (m n : Nat) : (stream rate a (m + n)).take m = stream rate a m := by
  rw [stream, ← List.map_take, List.take_range, Nat.min_eq_left (Nat.le_add_right m n)]
  rfl

/-- The state after `n` bytes were squeezed out of the finalized context `s`.  The lanes and the count are those of
`ceil(n / rate)` permutations; the cursor is written so that it is the rate for `n = 0` and stays at the end of a block
that has been output whole, where the next permutation is still to come. -/
structure Squeezed (s : State) (n : Nat) (t : State) : Prop where
  lanes : t.lanes = permuteTimes ((n + s.rate.toNat - 1) / s.rate.toNat) s.lanes
  rate : t.rate = s.rate
  pos : t.pos.toNat = (n + s.rate.toNat - 1) % s.rate.toNat + 1
  phase : t.phase = if n = 0 then .padded else .squeezing
  fault : t.fault = .noFault
  everFaulted : t.everFaulted = s.everFaulted
  outputs : t.outputs = s.outputs ++ stream s.rate.toNat s.lanes n
  perms : t.perms = s.perms + (n + s.rate.toNat - 1) / s.rate.toNat

theorem Squeezed.phase_after_finalize {s t : State} {n : Nat} (h : Squeezed s n t) :
    t.phase = .padded ∨ t.phase = .squeezing := by
  rw [h.phase]
  split
  next => exact .inl rfl
  next => exact .inr rfl

/-- A finalized context has output nothing. -/
theorem Squeezed.zero {s : State} (hf : s.fault = .noFault) (hp : s.phase = .padded) (hpos : s.pos = s.rate)
    (hrate : 1 ≤ s.rate.toNat) : Squeezed s 0 s := by
  have hlt : 0 + s.rate.toNat - 1 < s.rate.toNat := by omega
  have hnone := Nat.div_eq_of_lt hlt
  exact {
    lanes := by rw [hnone, permuteTimes]
    rate := rfl
    pos := by rw [hpos, Nat.mod_eq_of_lt hlt]; omega
    phase := hp
    fault := hf
    everFaulted := rfl
    outputs := (List.append_nil _).symm
    perms := by rw [hnone, Nat.add_zero] }

/-- The trigger of the next SQUEEZE leaves the cursor at the place in its block of the byte to output, in lanes permuted
once for that block and once for every block before it (R142). -/
theorem Squeezed.trigger {s t : State} {n : Nat} (h : Squeezed s n t) (hrate : 1 ≤ s.rate.toNat) :
    (permuteAtRate (quiet t)).lanes = permuteTimes (1 + n / s.rate.toNat) s.lanes ∧
    (permuteAtRate (quiet t)).pos.toNat = n % s.rate.toNat ∧
    (permuteAtRate (quiet t)).perms = s.perms + (1 + n / s.rate.toNat) := by
  have hsucc : n + s.rate.toNat - 1 + 1 = n + s.rate.toNat := by omega
  have hdivmod := succ_div_mod (n + s.rate.toNat - 1) hrate
  rw [hsucc, Nat.add_div_right n hrate, Nat.add_mod_right] at hdivmod
  rw [Nat.add_comm 1]
  split at hdivmod <;> rename_i hend <;> obtain ⟨hdiv, hmod⟩ := hdivmod
  · have heq : (quiet t).pos = (quiet t).rate :=
      BitVec.eq_of_toNat_eq (by rw [quiet_pos, quiet_rate, h.pos, h.rate, hend])
    rw [permuteAtRate_of_eq heq, hdiv, hmod, permuteTimes_succ, ← h.lanes, ← Nat.add_assoc, ← h.perms]
    exact ⟨rfl, rfl, rfl⟩
  · have hne : (quiet t).pos ≠ (quiet t).rate := by
      intro heq
      rw [quiet_pos, quiet_rate, ← BitVec.toNat_inj, h.pos, h.rate] at heq
      exact hend heq
    rw [permuteAtRate_of_ne hne, hdiv, hmod, ← h.lanes, ← h.perms]
    exact ⟨rfl, h.pos, rfl⟩

/-- One more SQUEEZE executes and outputs the next byte of the stream. -/
theorem Squeezed.succ {s t : State} {n : Nat} (h : Squeezed s n t) (hrate : 1 ≤ s.rate.toNat)
    (hmax : s.rate.toNat ≤ 200) : ∃ u, exec .squeeze t = .next u ∧ Squeezed s (n + 1) u := by
  obtain ⟨hlanes, hpos, hperms⟩ := h.trigger hrate
  have hlt := Nat.mod_lt n hrate
  have hpast := Nat.mod_lt (n + s.rate.toNat - 1) hrate
  obtain ⟨b, hb, hexec⟩ := exec_squeeze_executes h.fault h.phase_after_finalize (by rw [h.pos, h.rate]; exact hpast)
    (by rw [h.rate]; exact hrate) (by rw [h.rate]; exact hmax)
  have hbyte : b = streamByte s.rate.toNat s.lanes n := by
    rw [hlanes, hpos, memRead_eq_byteAt _ (hlt.trans_le hmax)] at hb
    exact (Option.some.inj hb).symm
  have hceil : n + 1 + s.rate.toNat - 1 = n + s.rate.toNat := by omega
  have hdiv : (n + 1 + s.rate.toNat - 1) / s.rate.toNat = 1 + n / s.rate.toNat := by
    rw [hceil, Nat.add_div_right n hrate, Nat.add_comm]
  refine ⟨_, hexec, ?_⟩
  exact {
    lanes := by rw [afterSqueeze_lanes, hlanes, hdiv]
    rate := by rw [afterSqueeze_rate, h.rate]
    pos := by
      rw [hceil, Nat.add_mod_right, ← hpos, afterSqueeze_pos]
      bv_omega
    phase := (if_neg n.succ_ne_zero).symm
    fault := by rw [afterSqueeze_fault, h.fault]
    everFaulted := by rw [afterSqueeze_everFaulted, h.everFaulted]
    outputs := by rw [afterSqueeze_outputs, h.outputs, stream_succ, hbyte, List.append_assoc]
    perms := by rw [hdiv]; exact hperms }

/-- A finalized context outputs any number of bytes. -/
theorem execAll_squeeze {s : State} (hf : s.fault = .noFault) (hp : s.phase = .padded) (hpos : s.pos = s.rate)
    (hrate : 1 ≤ s.rate.toNat) (hmax : s.rate.toNat ≤ 200) (n : Nat) :
    ∃ t, execAll (List.replicate n .squeeze) s = .next t ∧ Squeezed s n t := by
  induction n with
  | zero => exact ⟨s, rfl, .zero hf hp hpos hrate⟩
  | succ n ih =>
    obtain ⟨t, ht, hsqueezed⟩ := ih
    obtain ⟨u, hu, hsqueezed'⟩ := hsqueezed.succ hrate hmax
    refine ⟨u, ?_, hsqueezed'⟩
    rw [List.replicate_succ']
    exact execAll_concat_of_next ht hu

/-- In a finalized context that meets the invariant the cursor is at the rate, which is legal (R148). -/
theorem cursorFits_padded {s : State} (h : cursorFits s) (hp : s.phase = .padded) :
    s.pos = s.rate ∧ 1 ≤ s.rate.toNat ∧ s.rate.toNat ≤ 200 := by
  unfold cursorFits at h
  rw [hp] at h
  obtain ⟨⟨hmin, hmax⟩, hpos⟩ := h
  exact ⟨hpos, hmin, hmax⟩

theorem execAll_squeeze_of_inv {s : State} (hinv : s.Inv) (hf : s.fault = .noFault) (hp : s.phase = .padded) (n : Nat) :
    ∃ t, execAll (List.replicate n .squeeze) s = .next t ∧ Squeezed s n t := by
  obtain ⟨hcursor, -, -⟩ := hinv
  obtain ⟨hpos, hrate, hmax⟩ := cursorFits_padded hcursor hp
  exact execAll_squeeze hf hp hpos hrate hmax n

/-- Settles O51: the stream, the count and the cursor of the squeezed bytes. -/
theorem squeezeStreamsPermutedBlocks : Obligations.SqueezeStreamsPermutedBlocks := by
  intro s n hinv hf hp
  obtain ⟨t, ht, h⟩ := execAll_squeeze_of_inv hinv hf hp n
  refine ⟨t, ht, h.fault, h.outputs, h.perms, fun hn => ?_⟩
  have hshift : n + s.rate.toNat - 1 = n - 1 + s.rate.toNat := by omega
  rw [h.pos, hshift, Nat.add_mod_right]

/- Chunks. -/

theorem flatten_map_absorb (chunks : List (List Byte)) :
    (chunks.map fun bytes => bytes.map Instr.absorb).flatten = chunks.flatten.map .absorb := List.map_flatten.symm

theorem flatten_map_replicate_squeeze (lengths : List Nat) :
    (lengths.map fun n => List.replicate n Instr.squeeze).flatten = List.replicate lengths.sum .squeeze := by
  induction lengths with
  | nil => rfl
  | cons n lengths ih => rw [List.map_cons, List.flatten_cons, ih, List.sum_cons, List.replicate_append_replicate]

/-- Settles O49: calls run as their instructions one after another, and the state after those is given by the bytes
alone. -/
theorem absorbAndSqueezeAreChunkInvariant : Obligations.AbsorbAndSqueezeAreChunkInvariant := by
  refine ⟨fun s chunks hinv hf hp => ?_, fun s lengths hinv hf hp => ?_, fun s m n hinv hf hp => ?_⟩
  · obtain ⟨t, ht, h⟩ := execAll_absorb_of_inv hinv hf hp chunks.flatten
    refine ⟨t, ?_, ht, h.lanes, h.rate, h.pos, h.phase, h.fault, h.outputs⟩
    rw [execCalls_eq, flatten_map_absorb, ht]
  · obtain ⟨t, ht, h⟩ := execAll_squeeze_of_inv hinv hf hp lengths.sum
    refine ⟨t, ?_, ht, h.outputs, h.lanes, h.rate, h.phase, h.fault⟩
    rw [execCalls_eq, flatten_map_replicate_squeeze, ht]
  · obtain ⟨t, ht, h⟩ := execAll_squeeze_of_inv hinv hf hp m
    obtain ⟨u, hu, h'⟩ := execAll_squeeze_of_inv hinv hf hp (m + n)
    refine ⟨t, u, ht, hu, ?_⟩
    rw [h.outputs, h'.outputs, List.drop_left, take_stream]

/- The whole call. -/

/-- FINALIZE after the message pads it (R138, R152). -/
theorem Absorbed.finalize {s t : State} {message : List Byte} (h : Absorbed s message t) (hzero : s.lanes = zeroLanes)
    (hrate : 1 ≤ s.rate.toNat) (hmax : s.rate.toNat ≤ 200) :
    ∃ u, exec .finalize t = .next u ∧
      u.lanes = absorbPadded s.rate.toNat (message ++ padding s.rate.toNat message.length) ∧ u.rate = s.rate ∧
      u.pos = u.rate ∧ u.phase = .padded ∧ u.fault = .noFault ∧ u.everFaulted = s.everFaulted ∧
      u.outputs = s.outputs := by
  have hlt := Nat.mod_lt message.length hrate
  obtain ⟨a, a', ha, ha', hexec⟩ := exec_finalize_executes h.fault h.phase_before_finalize
    (by rw [h.pos, h.rate]; exact hlt) (by rw [h.rate]; exact hmax)
  rw [cursorPosition, h.pos, h.lanes, hzero] at ha
  rw [h.rate] at ha'
  exact ⟨_, hexec, (absorbPadded_eq hrate ha ha').symm, h.rate, rfl, rfl, h.fault, h.everFaulted, h.outputs⟩

/-- Settles O52: INIT makes a fresh context of zero lanes, the message is absorbed, FINALIZE pads it, and the stream of
the padded message is output. -/
theorem commandsComputeShake : Obligations.CommandsComputeShake := by
  intro s sec message n hsec
  have hrate : (afterInit sec s).rate.toNat = 200 - sec.toNat / 4 := rateOfSec_toNat sec
  obtain ⟨t, ht, habsorbed⟩ := execAll_absorb (s := afterInit sec s) rfl rfl rfl (by omega) (by omega) message
  obtain ⟨u, hu, hlanes, hrate', hpos, hphase, hfault, hever, houtputs⟩ :=
    habsorbed.finalize rfl (by omega) (by omega)
  obtain ⟨v, hv, hsqueezed⟩ := execAll_squeeze hfault hphase hpos (by rw [hrate']; omega) (by rw [hrate']; omega) n
  refine ⟨v, ?_, hsqueezed.fault, ?_, ?_⟩
  · rw [execAll_cons_of_next (exec_of_ran (.init hsec)), execAll_append_of_next ht, execAll_cons_of_next hu, hv]
  · rw [hsqueezed.everFaulted, hever, afterInit_everFaulted]
  · rw [hsqueezed.outputs, houtputs, afterInit_outputs, hlanes, hrate', hrate]
    rfl

end Sys2Proof.Machine
